-- ==== Sys2Proof/Word.lean ====
section
/-! DEFINITION. The widths of the block's values (spec/00_scope.md R5: `REG_BITS`, `I_BITS`, `PC_BITS`, `NREG`) and zero
extension, the only widening there is (R9). -/

namespace Sys2Proof

/-- An 8-bit value: a V register, `DT`, `ST`, a memory byte (R5 `REG_BITS`). -/
abbrev Byte := BitVec 8

/-- A 16-bit value: an instruction word, `I`, `pc`, a stack entry (R5 `I_BITS`, `PC_BITS`; R28; R70). -/
abbrev Word := BitVec 16

/-- A register number, V0 to VF (R20). -/
abbrev RegIx := Fin 16

/-- VF, the register the flags are written to (R22). -/
abbrev VF : RegIx := 15

/-- `zext_16` of a 12-bit address (R9, R72). -/
def zext16 (nnn : BitVec 12) : Word := nnn.setWidth 16

end Sys2Proof
end

