-- ==== Sys2Proof/Config.lean ====
section
/-! DEFINITION. What an implementation fixes (the parameter table of spec/00_scope.md R5, at the values this hardware takes) and
the free values: opaque constants with no body, of which nothing can be proved but that they exist. -/

namespace Sys2Proof.Config

/-- `MEM_SIZE` (R5, R33). -/
@[simp] abbrev memSize : Nat := 4096
/-- `PROG_START` (R5, R25). -/
@[simp] abbrev progStart : Nat := 0x200
/-- `FONT_BASE` (R5, R36). -/
@[simp] abbrev fontBase : Nat := 0
/-- `GLYPH_COUNT` (R5). -/
@[simp] abbrev glyphCount : Nat := 16
/-- `GLYPH_BYTES` (R5, R154). -/
@[simp] abbrev glyphBytes : Nat := 5
/-- `W`, the display's width in cells (R5, R34). -/
@[simp] abbrev width : Nat := 64
/-- `H`, the display's height in cells (R5, R34). -/
@[simp] abbrev height : Nat := 32

/-- `STACK_LIMIT`: none, the stack is unbounded (R5, R29, D5). -/
def stackLimit : Option Nat := none
/-- `ROW_WRAP_AT_H`: a sprite row at exactly `H` wraps (R5, R132, D9). -/
def rowWrapAtH : Bool := true

/-- The three values of `VF_ALIAS` (R125). -/
inductive VfAlias where
  /-- the result is written, then the flag -/
  | flagLast
  /-- the flag is written, the operands are read again, then the result is written -/
  | textOrder
  /-- any byte -/
  | unspecified
  deriving DecidableEq, Repr

/-- `VF_ALIAS`: OPEN in the spec, at its recommended value (R5, R125, D13; log 3). -/
def vfAlias : VfAlias := .unspecified

/-- The side conditions a model requires of its parameters (R6). -/
def admissible (memSize progStart fontBase glyphCount glyphBytes iBits : Nat) : Bool :=
  decide (progStart + 2 ≤ memSize) && decide (fontBase + glyphCount * glyphBytes ≤ progStart)
    && decide (memSize ≤ 2 ^ iBits)

end Sys2Proof.Config

namespace Sys2Proof

/-- The register file V0 to VF (R20). -/
abbrev Regs := Vector Byte 16

/-- The key state: `K[k]` is true while key `k` is pressed (R35). -/
abbrev Keys := Vector Bool 16

/-- The display buffer, row 0 at the top and column 0 at the left (R34). -/
abbrev Display := Vector (Vector Bool Config.width) Config.height

/-- Values for everything the spec leaves unspecified after a faulting cycle (R95): `V`, `I`, `pc`, `S`, `DT`, `ST`, the bytes of
`M` from address 0 on, `D` and `redraw`. -/
structure Wreck where
  v       : Regs
  i       : Word
  pc      : Word
  stack   : List Word
  dt      : Byte
  st      : Byte
  bytes   : List Byte
  display : Display
  redraw  : Bool
  deriving DecidableEq, Repr, Inhabited

/-- FREE VALUE. The key vector the host gives in a cycle for which `State.keyIn` holds none (R98, D18; log 1). -/
opaque Config.freeKeys : Nat → Keys

/-- FREE VALUE. A byte of the random source for which `State.rndIn` holds none (R42, R162; log 2), and the value an instruction
leaves where `VF_ALIAS` = `Unspecified` admits any byte (R125; log 3). -/
opaque Config.freeByte : Nat → Byte

/-- FREE VALUE. What a faulting cycle leaves behind (R95, D22; log 4); and what `RESET_VALUES` = `Any` starts from (D6, D7). -/
opaque Config.wreck : Nat → Wreck

end Sys2Proof
end

