-- ==== Sys2Proof/Syntax.lean ====
section
/-! DEFINITION. The instructions: one constructor for each of the 34 rows of spec/opcode_table.json (R76), with the operands of
its row. Register numbers and immediates carry their width in their type; the row count of DRW is a count, checked in WellFormed. -/

namespace Sys2Proof

/-- One constructor per row of R76. The pattern of each row stands beside it. -/
inductive Instr where
  /-- 00E0 (R101) -/
  | cls
  /-- 00EE (R102) -/
  | ret
  /-- 1NNN (R103) -/
  | jp (nnn : BitVec 12)
  /-- 2NNN (R104) -/
  | call (nnn : BitVec 12)
  /-- 3XKK (R105) -/
  | seImm (x : RegIx) (kk : Byte)
  /-- 4XKK (R106) -/
  | sneImm (x : RegIx) (kk : Byte)
  /-- 5XY0 (R107) -/
  | seReg (x y : RegIx)
  /-- 6XKK (R109) -/
  | ldImm (x : RegIx) (kk : Byte)
  /-- 7XKK (R110) -/
  | addImm (x : RegIx) (kk : Byte)
  /-- 8XY0 (R111) -/
  | ldReg (x y : RegIx)
  /-- 8XY1 (R112) -/
  | orReg (x y : RegIx)
  /-- 8XY2 (R113) -/
  | andReg (x y : RegIx)
  /-- 8XY3 (R114) -/
  | xorReg (x y : RegIx)
  /-- 8XY4 (R120) -/
  | addReg (x y : RegIx)
  /-- 8XY5 (R121) -/
  | subReg (x y : RegIx)
  /-- 8XY6 (R123): `y` is decoded but not read -/
  | shr (x y : RegIx)
  /-- 8XY7 (R122) -/
  | subnReg (x y : RegIx)
  /-- 8XYE (R124): `y` is decoded but not read -/
  | shl (x y : RegIx)
  /-- 9XY0 (R108) -/
  | sneReg (x y : RegIx)
  /-- ANNN (R160) -/
  | ldI (nnn : BitVec 12)
  /-- BNNN (R161) -/
  | jpV0 (nnn : BitVec 12)
  /-- CXKK (R162) -/
  | rnd (x : RegIx) (kk : Byte)
  /-- DXYN (R130): `n` rows -/
  | drw (x y : RegIx) (n : Nat)
  /-- EX9E (R140) -/
  | skp (x : RegIx)
  /-- EXA1 (R141) -/
  | sknp (x : RegIx)
  /-- FX07 (R150) -/
  | ldVxDt (x : RegIx)
  /-- FX0A (R142) -/
  | ldVxK (x : RegIx)
  /-- FX15 (R151) -/
  | ldDtVx (x : RegIx)
  /-- FX18 (R152) -/
  | ldStVx (x : RegIx)
  /-- FX1E (R153) -/
  | addI (x : RegIx)
  /-- FX29 (R154) -/
  | ldF (x : RegIx)
  /-- FX33 (R156) -/
  | ldB (x : RegIx)
  /-- FX55 (R157) -/
  | ldMemVx (x : RegIx)
  /-- FX65 (R158) -/
  | ldVxMem (x : RegIx)
  deriving DecidableEq, Repr

end Sys2Proof
end

