-- ==== Sys2Proof/Decode.lean ====
section
/-! DEFINITION. The decoder (R70 to R80, R92), total on any word and on any bytes, and the encoder from the same table. -/

namespace Sys2Proof

/-! ## Fields (R71, R72) -/

/-- `X` = `w[11:8]`. -/
def fieldX (w : Word) : RegIx := (w.extractLsb' 8 4).toFin
/-- `Y` = `w[7:4]`. -/
def fieldY (w : Word) : RegIx := (w.extractLsb' 4 4).toFin
/-- `KK` = `w[7:0]`. -/
def fieldKK (w : Word) : Byte := w.extractLsb' 0 8
/-- `NNN` = `w[11:0]`. -/
def fieldNNN (w : Word) : BitVec 12 := w.extractLsb' 0 12
/-- `N` = `w[3:0]`, a count. -/
def fieldN (w : Word) : Nat := (w.extractLsb' 0 4).toNat
/-- `T` = `w[15:12]`. -/
def fieldT (w : Word) : BitVec 4 := w.extractLsb' 12 4

/-! ## Selection -/

/-- The mask of the discriminant of a top nibble (R73). -/
def keyMask (t : BitVec 4) : Word :=
  if t = 0x0 ∨ t = 0xE ∨ t = 0xF then 0xF0FF
  else if t = 0x8 then 0xF00F
  else 0xF000

/-- The discriminant of a word (R73). -/
def key (w : Word) : Word := w &&& keyMask (fieldT w)

/-- A row of the opcode map: its match value, its mask, and the instruction it reads from a word it selects. -/
structure OpRow where
  pattern : Word
  mask    : Word
  build   : Word → Instr

/-- The opcode map (R76), rows in its order. -/
def opcodeMap : List OpRow :=
  [ ⟨0x00E0, 0xF0FF, fun _ => .cls⟩,
    ⟨0x00EE, 0xF0FF, fun _ => .ret⟩,
    ⟨0x1000, 0xF000, fun w => .jp (fieldNNN w)⟩,
    ⟨0x2000, 0xF000, fun w => .call (fieldNNN w)⟩,
    ⟨0x3000, 0xF000, fun w => .seImm (fieldX w) (fieldKK w)⟩,
    ⟨0x4000, 0xF000, fun w => .sneImm (fieldX w) (fieldKK w)⟩,
    ⟨0x5000, 0xF000, fun w => .seReg (fieldX w) (fieldY w)⟩,
    ⟨0x6000, 0xF000, fun w => .ldImm (fieldX w) (fieldKK w)⟩,
    ⟨0x7000, 0xF000, fun w => .addImm (fieldX w) (fieldKK w)⟩,
    ⟨0x8000, 0xF00F, fun w => .ldReg (fieldX w) (fieldY w)⟩,
    ⟨0x8001, 0xF00F, fun w => .orReg (fieldX w) (fieldY w)⟩,
    ⟨0x8002, 0xF00F, fun w => .andReg (fieldX w) (fieldY w)⟩ ] ++
  [ ⟨0x8003, 0xF00F, fun w => .xorReg (fieldX w) (fieldY w)⟩,
    ⟨0x8004, 0xF00F, fun w => .addReg (fieldX w) (fieldY w)⟩,
    ⟨0x8005, 0xF00F, fun w => .subReg (fieldX w) (fieldY w)⟩,
    ⟨0x8006, 0xF00F, fun w => .shr (fieldX w) (fieldY w)⟩,
    ⟨0x8007, 0xF00F, fun w => .subnReg (fieldX w) (fieldY w)⟩,
    ⟨0x800E, 0xF00F, fun w => .shl (fieldX w) (fieldY w)⟩,
    ⟨0x9000, 0xF000, fun w => .sneReg (fieldX w) (fieldY w)⟩,
    ⟨0xA000, 0xF000, fun w => .ldI (fieldNNN w)⟩,
    ⟨0xB000, 0xF000, fun w => .jpV0 (fieldNNN w)⟩,
    ⟨0xC000, 0xF000, fun w => .rnd (fieldX w) (fieldKK w)⟩,
    ⟨0xD000, 0xF000, fun w => .drw (fieldX w) (fieldY w) (fieldN w)⟩ ] ++
  [ ⟨0xE09E, 0xF0FF, fun w => .skp (fieldX w)⟩,
    ⟨0xE0A1, 0xF0FF, fun w => .sknp (fieldX w)⟩,
    ⟨0xF007, 0xF0FF, fun w => .ldVxDt (fieldX w)⟩,
    ⟨0xF00A, 0xF0FF, fun w => .ldVxK (fieldX w)⟩,
    ⟨0xF015, 0xF0FF, fun w => .ldDtVx (fieldX w)⟩,
    ⟨0xF018, 0xF0FF, fun w => .ldStVx (fieldX w)⟩,
    ⟨0xF01E, 0xF0FF, fun w => .addI (fieldX w)⟩,
    ⟨0xF029, 0xF0FF, fun w => .ldF (fieldX w)⟩,
    ⟨0xF033, 0xF0FF, fun w => .ldB (fieldX w)⟩,
    ⟨0xF055, 0xF0FF, fun w => .ldMemVx (fieldX w)⟩,
    ⟨0xF065, 0xF0FF, fun w => .ldVxMem (fieldX w)⟩ ]

/-- Decode (R92): the row whose match value equals the word's key; none for an unknown opcode (R80). -/
def decodeWord (w : Word) : Option Instr :=
  (opcodeMap.find? fun r => key w == r.pattern).map fun r => r.build w

/-! ## Bytes (R51, R70) -/

/-- The word of two consecutive bytes, the first at the lower address (R51, big-endian). -/
def wordOfBytes (hi lo : Byte) : Word := hi ++ lo

/-- The two bytes of a word as memory holds them, lower address first (R51). -/
def bytesOfWord (w : Word) : List Byte := [w.extractLsb' 8 8, w.extractLsb' 0 8]

/-- Why bytes carry no instruction. -/
inductive DecodeReject where
  /-- the word matches no row (R80) -/
  | unknownOpcode (w : Word)
  /-- fewer than two bytes -/
  | truncated
  deriving DecidableEq, Repr

/-- The first instruction of some bytes, with the bytes after it. -/
def decodeBytes : List Byte → Except DecodeReject (Instr × List Byte)
  | hi :: lo :: rest =>
    match decodeWord (wordOfBytes hi lo) with
    | some i => .ok (i, rest)
    | none => .error (.unknownOpcode (wordOfBytes hi lo))
  | _ => .error .truncated

/-- What the decoder reads from an instruction whose bits are `w`, bit 0 the least significant bit of its one word. -/
def decodeTableWord (nbits w : Nat) : Option Instr :=
  match decodeBytes (bytesOfWord (BitVec.ofNat 16 (w % 2 ^ nbits))) with
  | .ok (i, _) => some i
  | .error _ => none

/-! ## The encoder -/

/-- The word with fields `T` and `NNN` (R71). -/
def wordNNN (t : BitVec 4) (nnn : BitVec 12) : Word := t ++ nnn
/-- The word with fields `T`, `X` and `KK` (R71). -/
def wordXKK (t : BitVec 4) (x : RegIx) (kk : Byte) : Word := wordNNN t (BitVec.ofFin (w := 4) x ++ kk)
/-- The word with fields `T`, `X`, `Y` and `N` (R71). -/
def wordXYN (t : BitVec 4) (x y : RegIx) (n : BitVec 4) : Word := wordXKK t x (BitVec.ofFin (w := 4) y ++ n)

/-- The word of an instruction (R71, R76); bits the decoder ignores (R74) are 0. -/
def encode : Instr → Word
  | .cls => 0x00E0
  | .ret => 0x00EE
  | .jp nnn => wordNNN 0x1 nnn
  | .call nnn => wordNNN 0x2 nnn
  | .seImm x kk => wordXKK 0x3 x kk
  | .sneImm x kk => wordXKK 0x4 x kk
  | .seReg x y => wordXYN 0x5 x y 0x0
  | .ldImm x kk => wordXKK 0x6 x kk
  | .addImm x kk => wordXKK 0x7 x kk
  | .ldReg x y => wordXYN 0x8 x y 0x0
  | .orReg x y => wordXYN 0x8 x y 0x1
  | .andReg x y => wordXYN 0x8 x y 0x2
  | .xorReg x y => wordXYN 0x8 x y 0x3
  | .addReg x y => wordXYN 0x8 x y 0x4
  | .subReg x y => wordXYN 0x8 x y 0x5
  | .shr x y => wordXYN 0x8 x y 0x6
  | .subnReg x y => wordXYN 0x8 x y 0x7
  | .shl x y => wordXYN 0x8 x y 0xE
  | .sneReg x y => wordXYN 0x9 x y 0x0
  | .ldI nnn => wordNNN 0xA nnn
  | .jpV0 nnn => wordNNN 0xB nnn
  | .rnd x kk => wordXKK 0xC x kk
  | .drw x y n => wordXYN 0xD x y (BitVec.ofNat 4 n)
  | .skp x => wordXKK 0xE x 0x9E
  | .sknp x => wordXKK 0xE x 0xA1
  | .ldVxDt x => wordXKK 0xF x 0x07
  | .ldVxK x => wordXKK 0xF x 0x0A
  | .ldDtVx x => wordXKK 0xF x 0x15
  | .ldStVx x => wordXKK 0xF x 0x18
  | .addI x => wordXKK 0xF x 0x1E
  | .ldF x => wordXKK 0xF x 0x29
  | .ldB x => wordXKK 0xF x 0x33
  | .ldMemVx x => wordXKK 0xF x 0x55
  | .ldVxMem x => wordXKK 0xF x 0x65

/-- The bytes of an instruction as memory holds them (R51). -/
def encodeBytes (i : Instr) : List Byte := bytesOfWord (encode i)

end Sys2Proof
end

