-- ==== Sys2Proof/Machine/State.lean ====
section
/-! DEFINITION. The block's state (table of spec/10_state.md), the faults it can raise (spec/60_exceptions.md R171), and reset (R190). -/

namespace Sys2Proof.Machine

/-- Memory `M` (R33): the bytes that differ from the reset contents, as (address, byte) pairs with strictly rising addresses.
`Memory.blank` says what an unlisted address reads as, `Memory.wf` says the form. -/
abbrev Memory := List Host.Cell

/-- A raised fault with the information its row of R171 records. -/
inductive Raise where
  /-- by decode: the word matches no row (R80) -/
  | unknownOpcode (w : Word)
  /-- by RET on an empty stack; `pc` at the fault (R30) -/
  | stackUnderflow (pc : Word)
  /-- by fetch, DRW, LD B, LD [I] and LD Vx,[I]; the address at or above `MEM_SIZE` (R56) -/
  | memBounds (addr : Nat)
  /-- by DRW; the row still outside the display after the one wrap (R132) -/
  | drawBounds (y : Nat)
  /-- by CALL with a numeric `STACK_LIMIT`; `pc` at the fault (R29) -/
  | stackOverflow (pc : Word)
  deriving DecidableEq, Repr

/-- The fault record `(code, addr, instr, info)` (R40, R172). -/
structure FaultRecord where
  /-- the numeric code of R171 -/
  code  : Nat
  /-- the address the faulting instruction was fetched from -/
  addr  : Word
  /-- its word, or none when the fetch itself faulted -/
  instr : Option Word
  /-- what the fault's row of R171 records -/
  info  : Nat
  deriving DecidableEq, Repr

/-- Every piece of state the spec gives the block, the two values of the running cycle that fault entry reads, and the model's own
fields that carry the host's inputs and number the free values. -/
structure State where
  /-- V0 to VF (R20) -/
  v       : Regs
  /-- the index register (R24) -/
  i       : Word
  /-- the program counter (R25) -/
  pc      : Word
  /-- the return stack, its top first (R28; log 15) -/
  stack   : List Word
  /-- the delay timer (R31) -/
  dt      : Byte
  /-- the sound timer (R32) -/
  st      : Byte
  /-- memory (R33) -/
  mem     : Memory
  /-- the display buffer (R34) -/
  display : Display
  /-- the key state (R35) -/
  keys    : Keys
  /-- redraw pending (R38) -/
  redraw  : Bool
  /-- the tone trigger of the cycle just run (R39) -/
  tone    : Bool
  /-- none, or the record of the fault that stopped the block (R40) -/
  fault   : Option FaultRecord
  /-- `a` of R90: the address of the running instruction (log 16) -/
  curAddr : Word
  /-- `w` of R90: the word of the running instruction (log 16) -/
  curWord : Word
  /-- MODEL's own: the key vectors the host has ready, the next first (R98; log 1) -/
  keyIn   : List Keys
  /-- MODEL's own: the bytes the host has ready for CXKK, the next first (R42; log 2) -/
  rndIn   : List Byte
  /-- MODEL's own: how many free values have been taken (log 28) -/
  draws   : Nat
  deriving DecidableEq, Repr

/-- Why a step is no step. -/
inductive Fault where
  /-- `step` from a state whose `fault` is not none: "the block takes no further step" (R40, R174). Safe: no cycle runs. -/
  | stopped (r : FaultRecord)
  deriving DecidableEq, Repr

/-- Why the model refuses. -/
inductive Refusal where
  /-- an arm of `exec` whose instruction has no meaning yet. Safe: nothing can be proved about it. No arm uses it. -/
  | notModelled (mnemonic : String)
  deriving DecidableEq, Repr

/-- The machine right after reset with an empty ROM (R190, R191; "The ROM may be empty", R192). The default font is what unlisted
memory reads as. `RESET_VALUES` = `Zero` (log 6); `Machine.bootFrom` places a font and a ROM. -/
def State.reset : State where
  v       := Vector.replicate 16 0
  i       := 0
  pc      := 0x200
  stack   := []
  dt      := 0
  st      := 0
  mem     := []
  display := Vector.replicate 32 (Vector.replicate 64 false)
  keys    := Vector.replicate 16 false
  redraw  := false
  tone    := false
  fault   := none
  curAddr := 0
  curWord := 0
  keyIn   := []
  rndIn   := []
  draws   := 0

end Sys2Proof.Machine
end

