-- ==== Sys2Proof/Machine/Ops.lean ====
section
/-! DEFINITION. The named operations over memory, the display, the stack, the free values and the fault record: the primitives of
spec/00_scope.md R10, and fault entry (spec/60_exceptions.md R172). -/

namespace Sys2Proof.Machine

/-! ## Memory (20_memory.md) -/

/-- The default of the parameter `FONT`, glyph `g` at bytes `5g` to `5g + 4` (R37; PRESUMED by the spec, log 7). A machine with
another font is reset with `State.withFont`. -/
def fontTable : List Byte :=
  [0xF0, 0x90, 0x90, 0x90, 0xF0,  0x20, 0x60, 0x20, 0x20, 0x70,
   0xF0, 0x10, 0xF0, 0x80, 0xF0,  0xF0, 0x10, 0xF0, 0x10, 0xF0,
   0x90, 0x90, 0xF0, 0x10, 0x10,  0xF0, 0x80, 0xF0, 0x10, 0xF0,
   0xF0, 0x80, 0xF0, 0x90, 0xF0,  0xF0, 0x10, 0x20, 0x40, 0x40] ++
  [0xF0, 0x90, 0xF0, 0x90, 0xF0,  0xF0, 0x90, 0xF0, 0x10, 0xF0,
   0xF0, 0x90, 0xF0, 0x90, 0x90,  0xE0, 0x90, 0xE0, 0x90, 0xE0,
   0xF0, 0x80, 0x80, 0x80, 0xF0,  0xE0, 0x90, 0x90, 0x90, 0xE0,
   0xF0, 0x80, 0xF0, 0x80, 0xF0,  0xF0, 0x80, 0xF0, 0x80, 0x80]

/-- What an unlisted address reads as: the reset contents of R54, the default font at `FONT_BASE` and 0 elsewhere (R36; log 23). -/
def Memory.blank (a : Nat) : Byte :=
  if Config.fontBase ≤ a then fontTable.getD (a - Config.fontBase) 0 else 0

/-- The byte at an address, its bounds not checked. -/
def Memory.peek : Memory → Nat → Byte
  | [], a => Memory.blank a
  | (c, d) :: m, a => if a = c then d else Memory.peek m a

/-- A pair in front of a memory, left out when its byte is what the unlisted address reads as. -/
def Memory.list (a : Nat) (b : Byte) (m : Memory) : Memory :=
  if b = Memory.blank a then m else (a, b) :: m

/-- The memory with one byte replaced, its bounds not checked; keeps the canonical form. -/
def Memory.poke : Memory → Nat → Byte → Memory
  | [], a, b => Memory.list a b []
  | (c, d) :: m, a, b =>
    if a < c then Memory.list a b ((c, d) :: m)
    else if a = c then Memory.list a b m
    else (c, d) :: Memory.poke m a b

/-- The canonical form: addresses strictly rising and inside memory, no entry equal to what its address reads as unlisted. -/
abbrev Memory.wf (m : Memory) : Prop :=
  m.Pairwise (fun c d => c.1 < d.1) ∧ ∀ c ∈ m, c.1 < Config.memSize ∧ c.2 ≠ Memory.blank c.1

/-- `MemRead(addr, 1)` (R10, R56). -/
def Memory.read (m : Memory) (a : Nat) : Except Raise Byte :=
  if a < Config.memSize then .ok (m.peek a) else .error (.memBounds a)

/-- `MemWrite(addr, 1, v)` (R10, R56). -/
def Memory.write (m : Memory) (a : Nat) (b : Byte) : Except Raise Memory :=
  if a < Config.memSize then .ok (m.poke a b) else .error (.memBounds a)

/-- One-byte writes in order, up to the first that faults (R52, R173). -/
def Memory.writeAll : Memory → List (Nat × Byte) → Except Raise Memory
  | m, [] => .ok m
  | m, (a, b) :: rest =>
    match m.write a b with
    | .error e => .error e
    | .ok m' => Memory.writeAll m' rest

/-- The memory that holds the given bytes from address `a` on and reads as unlisted everywhere else. -/
def Memory.ofBytes : Nat → List Byte → Memory
  | _, [] => []
  | a, b :: bs => Memory.list a b (Memory.ofBytes (a + 1) bs)

/-- The instruction word at an address (R91): two reads, the lower address first, big-endian (R51). -/
def Memory.fetchWord (m : Memory) (a : Nat) : Except Raise Word :=
  match m.read a with
  | .error e => .error e
  | .ok hi =>
    match m.read (a + 1) with
    | .error e => .error e
    | .ok lo => .ok (wordOfBytes hi lo)

/-! ## Display (R34) -/

/-- `D[y][x]`. -/
def cell (d : Display) (y : Fin Config.height) (x : Fin Config.width) : Bool := (d.get y).get x

/-- `D[y][x] <- b`. -/
def setCell (d : Display) (y : Fin Config.height) (x : Fin Config.width) (b : Bool) : Display :=
  d.set y ((d.get y).set x b)

/-- A display with every cell 0 (R101). -/
def blankDisplay : Display := Vector.replicate Config.height (Vector.replicate Config.width false)

/-! ## Stack (R28 to R30) -/

/-- `push(v)` under a stack limit (R29). -/
def State.push (limit : Option Nat) (w : Word) (s : State) : Except Raise State :=
  if limit = some s.stack.length then .error (.stackOverflow s.pc)
  else .ok { s with stack := w :: s.stack }

/-- `pop()` (R30): the top entry and the state without it. -/
def State.pop (s : State) : Except Raise (Word × State) :=
  match s.stack with
  | [] => .error (.stackUnderflow s.pc)
  | w :: rest => .ok (w, { s with stack := rest })

/-! ## Bytes from outside and free values -/

/-- `draw_byte()` (R10, R42): the host's next byte, or a free value when it has none ready (log 2). -/
def State.drawnByte (s : State) : Byte := s.rndIn.headD (Config.freeByte s.draws)

/-- The state after `draw_byte()`. -/
def State.afterDraw (s : State) : State :=
  { s with rndIn := s.rndIn.tail, draws := if s.rndIn.isEmpty then s.draws + 1 else s.draws }

/-- A byte under no law (R125 `Unspecified`; log 3). -/
def State.anyByte (s : State) : Byte := Config.freeByte s.draws

/-- The state after one free value has been taken. -/
def State.countDraw (s : State) : State := { s with draws := s.draws + 1 }

/-! ## Fault entry (R172) -/

/-- The code of a fault (R171). -/
def Raise.code : Raise → Nat
  | .unknownOpcode _ => 1
  | .stackUnderflow _ => 2
  | .memBounds _ => 3
  | .drawBounds _ => 4
  | .stackOverflow _ => 5

/-- The information a fault records (R171). -/
def Raise.info : Raise → Nat
  | .unknownOpcode w => w.toNat
  | .stackUnderflow pc => pc.toNat
  | .memBounds a => a
  | .drawBounds y => y
  | .stackOverflow pc => pc.toNat

/-- What a faulting cycle leaves where the spec leaves it unspecified (R95): free values. -/
def State.wrecked (k : Wreck) (s : State) : State :=
  { s with
    v := k.v, i := k.i, pc := k.pc, stack := k.stack, dt := k.dt, st := k.st,
    mem := Memory.ofBytes 0 (k.bytes.take Config.memSize), display := k.display, redraw := k.redraw }

/-- Fault entry (R95, R172): the record `(code, a, w, info)` is set, everything R95 names is left unspecified, the cycle triggers no
tone (R39), and nothing else changes. There is no return from it (R174). -/
def State.enterFault (a : Word) (w : Option Word) (e : Raise) (s : State) : State :=
  { (s.wrecked (Config.wreck s.draws)).countDraw with
    fault := some ⟨e.code, a, w, e.info⟩, tone := false }

/-- `raise F(info)` in a handler (R10): fault entry for the running instruction. -/
def State.raise (e : Raise) (s : State) : State := s.enterFault s.curAddr (some s.curWord) e

/-- The end of a handler: its state, or fault entry when it raised. -/
def finish (s : State) : Except Raise State → Host.Outcome State Fault Refusal
  | .ok t => .next t
  | .error e => .next (s.raise e)

end Sys2Proof.Machine
end

