-- ==== Sys2Proof/Machine/Operands.lean ====
section
/-! DEFINITION. The operand forms of spec/30_encoding.md R77: registers, immediates, addresses, memory at `I`, keys. -/

namespace Sys2Proof.Machine

/-- `V[x]` (R10, R20). -/
def State.reg (s : State) (x : RegIx) : Byte := s.v.get x

/-- `V[x] <- b` (R10, R21). -/
def State.setReg (s : State) (x : RegIx) (b : Byte) : State := { s with v := s.v.set x b }

/-- `I <- w` (R10, R24). -/
def State.setI (s : State) (w : Word) : State := { s with i := w }

/-- `pc <- w` (R10, R25). -/
def State.setPc (s : State) (w : Word) : State := { s with pc := w }

/-- `DT <- b` (R10, R31). -/
def State.setDt (s : State) (b : Byte) : State := { s with dt := b }

/-- `ST <- b` (R10, R32). -/
def State.setSt (s : State) (b : Byte) : State := { s with st := b }

/-- `M <- m`, after the writes of an instruction. -/
def State.setMem (s : State) (m : Memory) : State := { s with mem := m }

/-- `D <- d; redraw <- 1` (R38, R101, R136). -/
def State.draw (s : State) (d : Display) : State := { s with display := d, redraw := true }

/-- The address `I + k`, neither masked nor wrapped (R56). -/
def State.indexAddr (s : State) (k : Nat) : Nat := s.i.toNat + k

/-- `V[x] mod 16` as a key number (R140). -/
def keyIndex (b : Byte) : Fin 16 := ⟨b.toNat % 16, Nat.mod_lt _ (by decide)⟩

/-- `K[V[x] mod 16]` (R140, R141). -/
def State.keyPressed (s : State) (x : RegIx) : Bool := s.keys.get (keyIndex (s.reg x))

/-- `min { k | K[k] = 1 }`, if any key is pressed (R142). -/
def firstPressed (ks : Keys) : Option (Fin 16) := (List.finRange 16).find? fun k => ks.get k

/-- A skip (R100): when the condition holds, `pc <- pc + 2`. -/
def State.skipIf (s : State) (c : Bool) : State := { s with pc := if c then s.pc + 2 else s.pc }

/-- V0 to Vx in ascending order (R157, R158). -/
def regsUpTo (x : RegIx) : List RegIx := (List.finRange 16).take (x.val + 1)

end Sys2Proof.Machine
end

