-- ==== Sys2Proof/Machine/Cycle.lean ====
section
/-! DEFINITION. The phases of one cycle around the instruction (spec/40_cycle.md R90): the key latch (R98), fetch and advance (R91,
R93), the timer tick (R96; spec/60_exceptions.md R178, R179) and the render (R97). -/

namespace Sys2Proof.Machine

/-- The key vector of this cycle: the host's next one, or a free value when it has none ready (R98; log 1). -/
def State.nextKeys (s : State) : Keys := s.keyIn.headD (Config.freeKeys s.draws)

/-- Phase 1 (R98): `K` takes the key input. -/
def State.latchKeys (s : State) : State :=
  { s with
    keys := s.nextKeys, keyIn := s.keyIn.tail, draws := if s.keyIn.isEmpty then s.draws + 1 else s.draws }

/-- The word at `pc` (R91). -/
def State.fetch (s : State) : Except Raise Word := s.mem.fetchWord s.pc.toNat

/-- The advance (R93): `a` and `w` are the running instruction's and `pc <- a + 2`. -/
def State.advance (w : Word) (s : State) : State :=
  { s with curAddr := s.pc, curWord := w, pc := s.pc + 2 }

/-- The delay timer's tick (R178). -/
def State.tickDelay (s : State) : State := { s with dt := if s.dt = 0 then 0 else s.dt - 1 }

/-- The sound timer's tick and the tone trigger (R179). -/
def State.tickSound (s : State) : State :=
  { s with st := if s.st = 0 then 0 else s.st - 1, tone := decide (s.st = 1) }

/-- Phase 3 (R96): delay, then sound. -/
def State.tick (s : State) : State := s.tickDelay.tickSound

/-- Phase 4 (R97): the host has read `D`; `redraw <- 0`. -/
def State.render (s : State) : State := { s with redraw := false }

/-- What follows the instruction: nothing when it faulted (R95), else the tick and the render. -/
def State.closeCycle (s : State) : State :=
  match s.fault with
  | some _ => s
  | none => s.tick.render

end Sys2Proof.Machine
end

