-- ==== Sys2Proof/Machine/Flags.lean ====
section
/-! DEFINITION. The result and flag of each flag-writing ALU instruction (spec/42_arithmetic_flags.md R120 to R124, R126), and the
one operation that writes both, with `VF_ALIAS` (R125). -/

namespace Sys2Proof.Machine

/-- A flag as a byte: every flag write stores 0 or 1 (R23). -/
def flagByte (c : Bool) : Byte := if c then 1 else 0

/-- ADD's result: the exact sum modulo 256 (R120). -/
def addRes (a b : Byte) : Byte := BitVec.ofNat 8 (a.toNat + b.toNat)
/-- ADD's flag: the exact sum exceeds 255 (R120). -/
def addFlag (a b : Byte) : Byte := flagByte (decide (a.toNat + b.toNat > 255))

/-- SUB's result: the exact difference modulo 256 (R121). -/
def subRes (a b : Byte) : Byte := BitVec.ofInt 8 ((a.toNat : Int) - (b.toNat : Int))
/-- SUB's flag: no borrow (R121). -/
def subFlag (a b : Byte) : Byte := flagByte (decide (b.toNat ≤ a.toNat))

/-- SUBN's result: the exact reverse difference modulo 256 (R122). -/
def subnRes (a b : Byte) : Byte := BitVec.ofInt 8 ((b.toNat : Int) - (a.toNat : Int))
/-- SUBN's flag: no borrow (R122). -/
def subnFlag (a b : Byte) : Byte := flagByte (decide (a.toNat ≤ b.toNat))

/-- SHR's result (R123); the second operand is not used. -/
def shrRes (a _b : Byte) : Byte := a >>> 1
/-- SHR's flag: bit 0, the bit shifted out (R123). -/
def shrFlag (a _b : Byte) : Byte := flagByte (a.getLsbD 0)

/-- SHL's result (R124); the second operand is not used. -/
def shlRes (a _b : Byte) : Byte := a <<< 1
/-- SHL's flag: bit 7, the bit shifted out (R124). -/
def shlFlag (a _b : Byte) : Byte := flagByte (a.getLsbD 7)

/-- The flag, then the operands read again, then the result (R125 `TextOrder`). -/
def State.aluTextOrder (res flag : Byte → Byte → Byte) (x y : RegIx) (s : State) : State :=
  let s' := s.setReg VF (flag (s.reg x) (s.reg y))
  s'.setReg x (res (s'.reg x) (s'.reg y))

/-- The result, then the flag, both of the operands read at the start (R120 to R124; R125 `FlagLast`). -/
def State.aluFlagLast (res flag : Byte → Byte → Byte) (x y : RegIx) (s : State) : State :=
  (s.setReg x (res (s.reg x) (s.reg y))).setReg VF (flag (s.reg x) (s.reg y))

/-- Any byte in `V[x]`; VF holds the flag unless it is `V[x]` (R125 `Unspecified`). -/
def State.aluUnspecified (flag : Byte → Byte → Byte) (x y : RegIx) (s : State) : State :=
  ((s.setReg VF (flag (s.reg x) (s.reg y))).setReg x s.anyByte).countDraw

/-- A flag-writing ALU instruction on `V[x]` and `V[y]` (R120 to R125). A shift, which reads `V[x]` alone, is the case `y = x`. -/
def State.alu (m : Config.VfAlias) (res flag : Byte → Byte → Byte) (x y : RegIx) (s : State) : State :=
  if x = VF ∨ y = VF then
    match m with
    | .flagLast => s.aluFlagLast res flag x y
    | .textOrder => s.aluTextOrder res flag x y
    | .unspecified => s.aluUnspecified flag x y
  else s.aluFlagLast res flag x y

end Sys2Proof.Machine
end

