-- ==== Sys2Proof/Machine/Arith.lean ====
section
/-! DEFINITION. The arithmetic instructions that write VF (spec/42_arithmetic_flags.md R120 to R125). -/

namespace Sys2Proof.Machine

/-- ADD Vx, Vy (R120). -/
def execAddReg (x y : RegIx) (s : State) : Host.Outcome State Fault Refusal :=
  .next (s.alu Config.vfAlias addRes addFlag x y)

/-- SUB Vx, Vy (R121). -/
def execSubReg (x y : RegIx) (s : State) : Host.Outcome State Fault Refusal :=
  .next (s.alu Config.vfAlias subRes subFlag x y)

/-- SUBN Vx, Vy (R122). -/
def execSubnReg (x y : RegIx) (s : State) : Host.Outcome State Fault Refusal :=
  .next (s.alu Config.vfAlias subnRes subnFlag x y)

/-- SHR Vx (R123): reads and writes Vx, not Vy. -/
def execShr (x _y : RegIx) (s : State) : Host.Outcome State Fault Refusal :=
  .next (s.alu Config.vfAlias shrRes shrFlag x x)

/-- SHL Vx (R124): reads and writes Vx, not Vy. -/
def execShl (x _y : RegIx) (s : State) : Host.Outcome State Fault Refusal :=
  .next (s.alu Config.vfAlias shlRes shlFlag x x)

end Sys2Proof.Machine
end

