-- ==== Sys2Proof/Machine/Control.lean ====
section
/-! DEFINITION. Clear screen, return, jumps, call and the four register skips (spec/41_control_and_register.md R100 to R108;
spec/46_unlisted_base.md R161). In every meaning `pc` is already `a + 2` (R93). -/

namespace Sys2Proof.Machine

/-- CLS (R101). -/
def execCls (s : State) : Host.Outcome State Fault Refusal := .next (s.draw blankDisplay)

/-- The state after RET, or its fault. -/
def retState (s : State) : Except Raise State :=
  match s.pop with
  | .error e => .error e
  | .ok (w, t) => .ok (t.setPc w)

/-- RET (R102). -/
def execRet (s : State) : Host.Outcome State Fault Refusal := finish s (retState s)

/-- JP NNN (R103). -/
def execJp (nnn : BitVec 12) (s : State) : Host.Outcome State Fault Refusal := .next (s.setPc (zext16 nnn))

/-- The state after CALL under a stack limit, or its fault. -/
def callState (limit : Option Nat) (nnn : BitVec 12) (s : State) : Except Raise State :=
  match s.push limit s.pc with
  | .error e => .error e
  | .ok t => .ok (t.setPc (zext16 nnn))

/-- CALL NNN (R104). -/
def execCall (nnn : BitVec 12) (s : State) : Host.Outcome State Fault Refusal :=
  finish s (callState Config.stackLimit nnn s)

/-- SE Vx, KK (R105). -/
def execSeImm (x : RegIx) (kk : Byte) (s : State) : Host.Outcome State Fault Refusal :=
  .next (s.skipIf (decide (s.reg x = kk)))

/-- SNE Vx, KK (R106). -/
def execSneImm (x : RegIx) (kk : Byte) (s : State) : Host.Outcome State Fault Refusal :=
  .next (s.skipIf (decide (s.reg x ≠ kk)))

/-- SE Vx, Vy (R107). -/
def execSeReg (x y : RegIx) (s : State) : Host.Outcome State Fault Refusal :=
  .next (s.skipIf (decide (s.reg x = s.reg y)))

/-- SNE Vx, Vy (R108). -/
def execSneReg (x y : RegIx) (s : State) : Host.Outcome State Fault Refusal :=
  .next (s.skipIf (decide (s.reg x ≠ s.reg y)))

/-- JP V0, NNN (R161; PRESUMED by the spec, log 9). -/
def execJpV0 (nnn : BitVec 12) (s : State) : Host.Outcome State Fault Refusal :=
  .next (s.setPc (zext16 nnn + (s.reg 0).setWidth 16))

end Sys2Proof.Machine
end

