-- ==== Sys2Proof/Machine/Draw.lean ====
section
/-! DEFINITION. The sprite draw (spec/43_draw.md R130 to R136). -/

namespace Sys2Proof.Machine

/-- The display and VF while a sprite is drawn. -/
structure Canvas where
  display : Display
  vf      : Byte
  deriving DecidableEq, Repr

/-- The row `y = y0 + r` after the wrap (R132): one subtraction of `H`, never a reduction modulo `H`. The first argument is
`ROW_WRAP_AT_H`. -/
def wrapRow (wrapAtH : Bool) (y : Nat) : Nat :=
  if (if wrapAtH then decide (Config.height ≤ y) else decide (Config.height < y)) then y - Config.height else y

/-- The target row: a row still outside the display after the wrap raises (R132). -/
def targetRow (wrapAtH : Bool) (y : Nat) : Except Raise (Fin Config.height) :=
  if h : wrapRow wrapAtH y < Config.height then .ok ⟨wrapRow wrapAtH y, h⟩ else .error (.drawBounds (wrapRow wrapAtH y))

/-- The pixel of a sprite row at column `c`: the most significant bit is column 0 (R134). -/
def spriteBit (row : Byte) (c : Nat) : Bool := row.getLsbD (7 - c)

/-- One pixel (R133, R135): dropped at or beyond `W`; else XORed, VF taking this pixel's collision alone. -/
def drawPixel (x0 : Nat) (y : Fin Config.height) (row : Byte) (p : Canvas) (c : Nat) : Canvas :=
  if h : x0 + c < Config.width then
    let old := cell p.display y ⟨x0 + c, h⟩
    let bit := spriteBit row c
    { display := setCell p.display y ⟨x0 + c, h⟩ (old ^^ bit), vf := if old && bit then 1 else 0 }
  else p

/-- One row, columns 0 to 7 in ascending order (R134). -/
def drawRow (x0 : Nat) (y : Fin Config.height) (row : Byte) (p : Canvas) : Canvas :=
  (List.range 8).foldl (drawPixel x0 y row) p

/-- The rows of a sprite at `base`, in the order of the list (R131, R132, R134): for each, its byte is read, then its row is found. -/
def drawRows (wrapAtH : Bool) (m : Memory) (base x0 y0 : Nat) : List Nat → Canvas → Except Raise Canvas
  | [], p => .ok p
  | r :: rs, p =>
    match m.read (base + r) with
    | .error e => .error e
    | .ok row =>
      match targetRow wrapAtH (y0 + r) with
      | .error e => .error e
      | .ok y => drawRows wrapAtH m base x0 y0 rs (drawRow x0 y row p)

/-- The state after DRW, or its fault: the origin is read before VF is reset (R131), `redraw` is set at the end (R136). -/
def drwState (wrapAtH : Bool) (x y : RegIx) (n : Nat) (s : State) : Except Raise State :=
  match drawRows wrapAtH s.mem s.i.toNat (s.reg x).toNat (s.reg y).toNat (List.range n) ⟨s.display, 0⟩ with
  | .error e => .error e
  | .ok p => .ok ((s.setReg VF p.vf).draw p.display)

/-- DRW Vx, Vy, N (R130). -/
def execDrw (x y : RegIx) (n : Nat) (s : State) : Host.Outcome State Fault Refusal :=
  finish s (drwState Config.rowWrapAtH x y n s)

end Sys2Proof.Machine
end

