-- ==== Sys2Proof/Machine/Index.lean ====
section
/-! DEFINITION. The timer, index, font, BCD and block-transfer instructions (spec/45_timer_memory_bcd.md R150 to R158), and the load
of `I` (spec/46_unlisted_base.md R160). -/

namespace Sys2Proof.Machine

/-- LD Vx, DT (R150). -/
def execLdVxDt (x : RegIx) (s : State) : Host.Outcome State Fault Refusal := .next (s.setReg x s.dt)

/-- LD DT, Vx (R151). -/
def execLdDtVx (x : RegIx) (s : State) : Host.Outcome State Fault Refusal := .next (s.setDt (s.reg x))

/-- LD ST, Vx (R152). -/
def execLdStVx (x : RegIx) (s : State) : Host.Outcome State Fault Refusal := .next (s.setSt (s.reg x))

/-- ADD I, Vx (R153): modulo 2^16, no flag. -/
def execAddI (x : RegIx) (s : State) : Host.Outcome State Fault Refusal :=
  .next (s.setI (BitVec.ofNat 16 (s.i.toNat + (s.reg x).toNat)))

/-- LD F, Vx (R154). -/
def execLdF (x : RegIx) (s : State) : Host.Outcome State Fault Refusal :=
  .next (s.setI (BitVec.ofNat 16 (Config.fontBase + Config.glyphBytes * ((s.reg x).toNat % 16))))

/-- LD I, NNN (R160; PRESUMED by the spec, log 9). -/
def execLdI (nnn : BitVec 12) (s : State) : Host.Outcome State Fault Refusal := .next (s.setI (zext16 nnn))

/-- The hundreds digit of a byte (R155). -/
def bcdHundreds (b : Byte) : Byte := BitVec.ofNat 8 (b.toNat / 100)
/-- The tens digit of a byte (R155). -/
def bcdTens (b : Byte) : Byte := BitVec.ofNat 8 (b.toNat / 10 % 10)
/-- The units digit of a byte (R155). -/
def bcdUnits (b : Byte) : Byte := BitVec.ofNat 8 (b.toNat % 10)

/-- The stores of LD B, Vx, in order (R156). -/
def bcdStores (x : RegIx) (s : State) : List (Nat × Byte) :=
  [(s.indexAddr 0, bcdHundreds (s.reg x)), (s.indexAddr 1, bcdTens (s.reg x)), (s.indexAddr 2, bcdUnits (s.reg x))]

/-- The stores of LD [I], Vx, in order (R157). -/
def dumpStores (x : RegIx) (s : State) : List (Nat × Byte) :=
  (regsUpTo x).map fun k => (s.indexAddr k.val, s.reg k)

/-- The state after a handler's stores, or the fault of the first one out of bounds (R173). `I` is not changed. -/
def storeState (stores : List (Nat × Byte)) (s : State) : Except Raise State :=
  match s.mem.writeAll stores with
  | .error e => .error e
  | .ok m => .ok (s.setMem m)

/-- LD B, Vx (R156). -/
def execLdB (x : RegIx) (s : State) : Host.Outcome State Fault Refusal := finish s (storeState (bcdStores x s) s)

/-- LD [I], Vx (R157). -/
def execLdMemVx (x : RegIx) (s : State) : Host.Outcome State Fault Refusal := finish s (storeState (dumpStores x s) s)

/-- The loads of LD Vx, [I] into the given registers, in order (R158). `I` is not changed. -/
def loadState : List RegIx → State → Except Raise State
  | [], s => .ok s
  | k :: ks, s =>
    match s.mem.read (s.indexAddr k.val) with
    | .error e => .error e
    | .ok b => loadState ks (s.setReg k b)

/-- LD Vx, [I] (R158). -/
def execLdVxMem (x : RegIx) (s : State) : Host.Outcome State Fault Refusal := finish s (loadState (regsUpTo x) s)

end Sys2Proof.Machine
end

