-- ==== Sys2Proof/Machine/Input.lean ====
section
/-! DEFINITION. The key skips and the wait for a key (spec/44_input.md R140 to R142). -/

namespace Sys2Proof.Machine

/-- SKP Vx (R140). -/
def execSkp (x : RegIx) (s : State) : Host.Outcome State Fault Refusal := .next (s.skipIf (s.keyPressed x))

/-- SKNP Vx (R141). -/
def execSknp (x : RegIx) (s : State) : Host.Outcome State Fault Refusal := .next (s.skipIf (!s.keyPressed x))

/-- LD Vx, K (R142): the lowest pressed key into Vx, or, with none pressed, `pc` back to this instruction. -/
def execLdVxK (x : RegIx) (s : State) : Host.Outcome State Fault Refusal :=
  .next { s with
    v := match firstPressed s.keys with
      | some k => s.v.set x (BitVec.ofNat 8 k.val)
      | none => s.v
    pc := match firstPressed s.keys with
      | some _ => s.pc
      | none => s.pc - 2 }

end Sys2Proof.Machine
end

