-- ==== Sys2Proof/Machine/Step.lean ====
section
/-! DEFINITION. One step = one cycle (spec/40_cycle.md R90). -/

namespace Sys2Proof.Machine

/-- Fetch, decode, advance and dispatch (R91 to R94), with fault entry for the first two (R95, R173), on a state whose keys are
latched; then the end of the cycle. -/
def cycleFrom (s : State) : Host.Outcome State Fault Refusal :=
  match s.fetch with
  | .error e => .next (s.enterFault s.pc none e)
  | .ok w =>
    match decodeWord w with
    | none => .next (s.enterFault s.pc (some w) (.unknownOpcode w))
    | some i =>
      match exec i (s.advance w) with
      | .next t => .next t.closeCycle
      | .fault f => .fault f
      | .refused r => .refused r

/-- One cycle (R90); from a state whose `fault` is not none the block takes no step (R40). -/
def step (s : State) : Host.Outcome State Fault Refusal :=
  match s.fault with
  | some r => .fault (.stopped r)
  | none => cycleFrom s.latchKeys

/-- The address a word is placed at so that the next step fetches it: `pc`, or `PROG_START` where no word fits at `pc` (log 18). -/
def fetchableAddr (s : State) : Word :=
  if s.pc.toNat + 1 < Config.memSize then s.pc else BitVec.ofNat 16 Config.progStart

/-- `s` with an instruction stored where the next step fetches (R51, R91) and the block running (log 18). -/
def State.withFetchWord (s : State) (nbits w : Nat) : State :=
  let word := BitVec.ofNat 16 (w % 2 ^ nbits)
  let a := (fetchableAddr s).toNat
  { s with
    mem := (s.mem.poke a (word.extractLsb' 8 8)).poke (a + 1) (word.extractLsb' 0 8)
    pc := fetchableAddr s
    fault := none }

end Sys2Proof.Machine
end

