-- ==== Sys2Proof/Machine/Boot.lean ====
section
/-! DEFINITION. How a program comes to run (spec/70_reset_and_hazards.md R190 to R193): the font and then the ROM are placed
in the memory of a reset state before the first cycle. Both are arguments: `FONT` is a parameter (spec/10_state.md R37).
The other value of `RESET_VALUES` (spec/00_scope.md R5, D6, D7) is here too. -/

namespace Sys2Proof.Machine

/-- The longest ROM that fits: `MEM_SIZE - PROG_START` (R193). -/
def romLimit : Nat := Config.memSize - Config.progStart

/-- Bytes placed at consecutive addresses, `n` at `a + n` (R192). -/
def Memory.place : Memory → Nat → List Byte → Memory
  | m, _, [] => m
  | m, a, b :: bs => Memory.place (m.poke a b) (a + 1) bs

/-- The font load: byte `k` of `FONT` at `FONT_BASE + k` (R191). -/
def State.withFont (font : List Byte) (s : State) : State := { s with mem := s.mem.place Config.fontBase font }

/-- The ROM load: byte `n` of the ROM at `PROG_START + n` (R192). -/
def State.withRom (rom : List Byte) (s : State) : State := { s with mem := s.mem.place Config.progStart rom }

/-- Whether `FONT` is a table of `GLYPH_COUNT` glyphs of `GLYPH_BYTES` bytes and the parameters meet R6; a model refuses other
configurations (log 31). -/
def configured (font : List Byte) : Bool :=
  Config.admissible Config.memSize Config.progStart Config.fontBase Config.glyphCount Config.glyphBytes 16
    && decide (font.length = Config.glyphCount * Config.glyphBytes)

/-- The state in which the first cycle starts: the font load, then the ROM load (R190 to R192). None for a configuration or a ROM
(R193) that is refused. -/
def bootFrom (font : List Byte) (s : State) (rom : List Byte) : Option State :=
  if configured font ∧ rom.length ≤ romLimit then some ((s.withFont font).withRom rom) else none

/-- Reset with `RESET_VALUES` = `Zero`, the default `FONT` of R37, and a ROM. -/
def boot (rom : List Byte) : Option State := bootFrom fontTable State.reset rom

/-- The reset state under `RESET_VALUES` = `Any` (D6, D7): `V`, `I`, `DT`, `ST` and the memory outside the font are free
values, and the font is the default one, which `State.withFont` replaces. -/
def State.resetAny (k : Wreck) : State :=
  { State.reset with
    v := k.v, i := k.i, dt := k.dt, st := k.st
    mem := Memory.ofBytes (Config.fontBase + Config.glyphCount * Config.glyphBytes)
      (k.bytes.take (Config.memSize - (Config.fontBase + Config.glyphCount * Config.glyphBytes))) }

end Sys2Proof.Machine
end

