-- ==== Sys2Proof/Safety.lean ====
section
/-! DEFINITION. The terms claims are stated in: what a running block is, which state a handler starts from, which states a run
reaches, and the invariant every cycle keeps. -/

namespace Sys2Proof.Machine

/-- The block runs: no fault has been recorded (R40). -/
abbrev State.running (s : State) : Prop := s.fault = none

/-- The 16-bit word whose bits 15 to 8 are the byte at `a` and whose bits 7 to 0 are the byte at `a + 1` (R51). -/
def wordAt (m : Memory) (a : Nat) : Word := BitVec.ofNat 16 (256 * (m.peek a).toNat + (m.peek (a + 1)).toNat)

/-- A cycle from `s` fetches the word `w`, which decodes to `i` (R91, R92). -/
def State.runs (s : State) (w : Word) (i : Instr) : Prop :=
  s.running ∧ s.pc.toNat + 1 < Config.memSize ∧ wordAt s.mem s.pc.toNat = w ∧ decodeWord w = some i

/-- The state the handler of the word `w` starts from (R90, R93, R98): the keys latched, the word taken, `pc` advanced. -/
def State.entry (s : State) (w : Word) : State :=
  { s with
    keys := s.keyIn.headD (Config.freeKeys s.draws)
    keyIn := s.keyIn.tail
    draws := if s.keyIn.isEmpty then s.draws + 1 else s.draws
    curAddr := s.pc
    curWord := w
    pc := s.pc + 2 }

/-- Every word the mask and match value of a row select decodes to that row's instruction (R76). -/
def Selects (pattern mask : Word) (build : Word → Instr) : Prop :=
  ∀ w : Word, w &&& mask = pattern → decodeWord w = some (build w)

/-- Handlers run one after the other, with nothing between them. -/
def execAll : List Instr → State → Host.Outcome State Fault Refusal
  | [], s => .next s
  | i :: is, s =>
    match exec i s with
    | .next t => execAll is t
    | .fault f => .fault f
    | .refused r => .refused r

/-- The states a run from `s` passes through. -/
inductive Reaches (s : State) : State → Prop where
  | here : Reaches s s
  | cycle {t u : State} : Reaches s t → step t = .next u → Reaches s u

/-- Memory reads the same at every address. -/
def SameMemory (s t : State) : Prop := ∀ a, t.mem.peek a = s.mem.peek a

/-- The record a handler's fault leaves: its code, the running instruction's address and word, its information (R171, R172). -/
def State.stoppedWith (t s : State) (code info : Nat) : Prop :=
  t.fault = some ⟨code, s.curAddr, some s.curWord, info⟩

/-- What every cycle keeps. Memory keeps its canonical form; a tone sounds only in a cycle that left `ST` at 0 (R39); and while the
block runs, `pc` is at most 0x10FE (R27), every stack entry is the address after a CALL inside memory (R102) and `redraw` is 0
between cycles (R97). -/
def State.Inv (s : State) : Prop :=
  s.mem.wf ∧ (s.tone = true → s.st = 0) ∧
    (s.running → s.pc.toNat ≤ 0x10FE ∧ (∀ e ∈ s.stack, e.toNat ≤ Config.memSize) ∧ s.redraw = false)

end Sys2Proof.Machine
end

