-- ==== Sys2Proof/Certificates/Slice0/Obligations.lean ====
section
/-! DEFINITION. The statements for the provers. Handler statements are about `exec`, on a state whose `pc` is already `a + 2` (R93);
cycle statements are about `step`. A frame is written `t = { s with f := t.f, … }`: no field but the named ones differs. -/

open Sys2Proof Sys2Proof.Machine

/-! ## Encoding -/

/-- R71: the fields of a word, as numbers. -/
def Obligations.FieldsAreSlicesOfTheWord : Prop :=
  ∀ w : Word,
    (fieldT w).toNat = w.toNat / 4096 ∧ (fieldX w).val = w.toNat / 256 % 16 ∧ (fieldY w).val = w.toNat / 16 % 16 ∧
    (fieldKK w).toNat = w.toNat % 256 ∧ (fieldNNN w).toNat = w.toNat % 4096 ∧ fieldN w = w.toNat % 16

/-- R73: the key, by top nibble, and that the key alone decides whether a word is an instruction. -/
def Obligations.KeyWidensByTopNibble : Prop :=
  (∀ w : Word, key w =
    if w.toNat / 4096 = 0 ∨ w.toNat / 4096 = 14 ∨ w.toNat / 4096 = 15 then w &&& 0xF0FF
    else if w.toNat / 4096 = 8 then w &&& 0xF00F else w &&& 0xF000) ∧
  ∀ w w' : Word, key w = key w' → (decodeWord w = none ↔ decodeWord w' = none)

/-- R76 (match values from general knowledge, D17; log 8): a few words written out bit by bit, one of each family. -/
def Obligations.WordsDecodeToTheirInstructions : Prop :=
  decodeWord 0b0000000011100000 = some .cls ∧
  decodeWord 0b0000001111101110 = some .ret ∧
  decodeWord 0b0010001000010000 = some (.call 0x210) ∧
  decodeWord 0b0101000100100111 = some (.seReg 1 2) ∧
  decodeWord 0b0111000101100100 = some (.addImm 1 0x64) ∧
  decodeWord 0b1000101010110110 = some (.shr 10 11) ∧
  decodeWord 0b1100001100001111 = some (.rnd 3 0x0F) ∧
  decodeWord 0b1101000000011111 = some (.drw 0 1 15) ∧
  decodeWord 0b1110001010100001 = some (.sknp 2) ∧
  decodeWord 0b1111111101100101 = some (.ldVxMem 15) ∧
  decodeWord 0b0000000100100011 = none ∧
  decodeWord 0b1000000000001111 = none

/-- R76 (match values from general knowledge, D17; log 8): all 34 rows, each with its match value, mask and operands. -/
def Obligations.EveryRowOfTheOpcodeMapDecodes : Prop :=
  Selects 0x00E0 0xF0FF (fun _ => .cls) ∧ Selects 0x00EE 0xF0FF (fun _ => .ret) ∧
  Selects 0x1000 0xF000 (fun w => .jp (fieldNNN w)) ∧ Selects 0x2000 0xF000 (fun w => .call (fieldNNN w)) ∧
  Selects 0x3000 0xF000 (fun w => .seImm (fieldX w) (fieldKK w)) ∧
  Selects 0x4000 0xF000 (fun w => .sneImm (fieldX w) (fieldKK w)) ∧
  Selects 0x5000 0xF000 (fun w => .seReg (fieldX w) (fieldY w)) ∧
  Selects 0x6000 0xF000 (fun w => .ldImm (fieldX w) (fieldKK w)) ∧
  Selects 0x7000 0xF000 (fun w => .addImm (fieldX w) (fieldKK w)) ∧
  Selects 0x8000 0xF00F (fun w => .ldReg (fieldX w) (fieldY w)) ∧
  Selects 0x8001 0xF00F (fun w => .orReg (fieldX w) (fieldY w)) ∧
  Selects 0x8002 0xF00F (fun w => .andReg (fieldX w) (fieldY w)) ∧
  Selects 0x8003 0xF00F (fun w => .xorReg (fieldX w) (fieldY w)) ∧
  Selects 0x8004 0xF00F (fun w => .addReg (fieldX w) (fieldY w)) ∧
  Selects 0x8005 0xF00F (fun w => .subReg (fieldX w) (fieldY w)) ∧
  Selects 0x8006 0xF00F (fun w => .shr (fieldX w) (fieldY w)) ∧
  Selects 0x8007 0xF00F (fun w => .subnReg (fieldX w) (fieldY w)) ∧
  Selects 0x800E 0xF00F (fun w => .shl (fieldX w) (fieldY w)) ∧
  Selects 0x9000 0xF000 (fun w => .sneReg (fieldX w) (fieldY w)) ∧
  Selects 0xA000 0xF000 (fun w => .ldI (fieldNNN w)) ∧ Selects 0xB000 0xF000 (fun w => .jpV0 (fieldNNN w)) ∧
  Selects 0xC000 0xF000 (fun w => .rnd (fieldX w) (fieldKK w)) ∧
  Selects 0xD000 0xF000 (fun w => .drw (fieldX w) (fieldY w) (fieldN w)) ∧
  Selects 0xE09E 0xF0FF (fun w => .skp (fieldX w)) ∧ Selects 0xE0A1 0xF0FF (fun w => .sknp (fieldX w)) ∧
  Selects 0xF007 0xF0FF (fun w => .ldVxDt (fieldX w)) ∧ Selects 0xF00A 0xF0FF (fun w => .ldVxK (fieldX w)) ∧
  Selects 0xF015 0xF0FF (fun w => .ldDtVx (fieldX w)) ∧ Selects 0xF018 0xF0FF (fun w => .ldStVx (fieldX w)) ∧
  Selects 0xF01E 0xF0FF (fun w => .addI (fieldX w)) ∧ Selects 0xF029 0xF0FF (fun w => .ldF (fieldX w)) ∧
  Selects 0xF033 0xF0FF (fun w => .ldB (fieldX w)) ∧ Selects 0xF055 0xF0FF (fun w => .ldMemVx (fieldX w)) ∧
  Selects 0xF065 0xF0FF (fun w => .ldVxMem (fieldX w))

/-- R80 (the match values by D17, log 8): the words that are no instruction are exactly the four listed sets. -/
def Obligations.UnknownWordsAreTheListedOnes : Prop :=
  ∀ w : Word, decodeWord w = none ↔
    (w.toNat / 4096 = 0 ∧ w.toNat % 256 ∉ [0xE0, 0xEE]) ∨
    (w.toNat / 4096 = 8 ∧ w.toNat % 16 ∈ [8, 9, 10, 11, 12, 13, 15]) ∨
    (w.toNat / 4096 = 14 ∧ w.toNat % 256 ∉ [0x9E, 0xA1]) ∨
    (w.toNat / 4096 = 15 ∧ w.toNat % 256 ∉ [0x07, 0x0A, 0x15, 0x18, 0x1E, 0x29, 0x33, 0x55, 0x65])

/-- Decode and encode agree on every well-formed instruction, on its word and on its bytes in front of any others. The encoder,
which writes 0 in the ignored bits and keeps Y of SHR and SHL, is the model's (log 25); the match values are by D17 (log 8). -/
def Obligations.DecodeOfEncodeIsTheInstruction : Prop :=
  ∀ i : Instr, i.wellFormed = true →
    decodeWord (encode i) = some i ∧ ∀ rest, decodeBytes (encodeBytes i ++ rest) = .ok (i, rest)

/-- Model's choice (log 25, DESIGN CHOICE): encoding a decoded instruction gives its word back with 0 in the bits R74 lets the
decoder ignore and with Y of SHR and SHL kept. R74 says which bits are ignored, not what an encoder writes there. A decoded
instruction is well formed. -/
def Obligations.EncodeOfDecodeKeepsEverySignificantBit : Prop :=
  ∀ (w : Word) (i : Instr), decodeWord w = some i →
    i.wellFormed = true ∧
    encode i = w &&& (if w.toNat / 4096 = 0 then 0xF0FF
      else if w.toNat / 4096 = 5 ∨ w.toNat / 4096 = 9 then 0xFFF0 else 0xFFFF)

/-! ## Reset and load -/

/-- R190, R36, R37, R54: the reset state. `V`, `I`, `DT`, `ST`, spare memory, `K`, `redraw`, `tone` at 0 are the spec's own decisions
D6 to D8 (log 6); the font bytes are R37's (log 7). -/
def Obligations.ResetStateHoldsTheStatedValues : Prop :=
  (∀ x, State.reset.reg x = 0) ∧ State.reset.i = 0 ∧ State.reset.pc = 0x200 ∧ State.reset.stack = [] ∧
  State.reset.dt = 0 ∧ State.reset.st = 0 ∧ (∀ y x, cell State.reset.display y x = false) ∧
  (∀ k, State.reset.keys.get k = false) ∧ State.reset.redraw = false ∧ State.reset.tone = false ∧
  State.reset.fault = none ∧
  (List.range 80).map (fun a => State.reset.mem.peek a) =
    ([0xF0, 0x90, 0x90, 0x90, 0xF0, 0x20, 0x60, 0x20, 0x20, 0x70, 0xF0, 0x10, 0xF0, 0x80, 0xF0, 0xF0, 0x10, 0xF0, 0x10, 0xF0,
      0x90, 0x90, 0xF0, 0x10, 0x10, 0xF0, 0x80, 0xF0, 0x10, 0xF0, 0xF0, 0x80, 0xF0, 0x90, 0xF0, 0xF0, 0x10, 0x20, 0x40, 0x40,
      0xF0, 0x90, 0xF0, 0x90, 0xF0, 0xF0, 0x90, 0xF0, 0x10, 0xF0, 0xF0, 0x90, 0xF0, 0x90, 0x90, 0xE0, 0x90, 0xE0, 0x90, 0xE0,
      0xF0, 0x80, 0x80, 0x80, 0xF0, 0xE0, 0x90, 0x90, 0x90, 0xE0, 0xF0, 0x80, 0xF0, 0x80, 0xF0, 0xF0, 0x80, 0xF0, 0x80, 0x80] :
      List Byte) ∧
  ∀ a, 80 ≤ a → State.reset.mem.peek a = 0

/-- R192, R193 (the limit by D24, log 26): a ROM that fits stands at 0x200 with everything else as reset left it, and a longer one is
refused. -/
def Obligations.BootPlacesTheRomOrRefusesIt : Prop :=
  (∀ rom : List Byte, rom.length ≤ 3584 →
    ∃ s, boot rom = some s ∧ s = { State.reset with mem := s.mem } ∧ s.mem.wf ∧
      (∀ n (h : n < rom.length), s.mem.peek (0x200 + n) = rom[n]) ∧
      ∀ a, (a < 0x200 ∨ 0x200 + rom.length ≤ a) → s.mem.peek a = State.reset.mem.peek a) ∧
  ∀ rom : List Byte, 3584 < rom.length → boot rom = none

/-! ## Memory -/

/-- R56, R57 (no masking by D3, log 13): a write inside memory keeps the canonical form, reads back, and leaves every other byte; an
access at or above `MEM_SIZE` raises. -/
def Obligations.MemoryReadsBackWhatWasWritten : Prop :=
  (∀ (m : Memory) (a : Nat) (b : Byte), m.wf → a < 4096 →
    ∃ m', m.write a b = .ok m' ∧ m'.wf ∧ m'.read a = .ok b ∧ ∀ a', a' ≠ a → m'.peek a' = m.peek a') ∧
  ∀ (m : Memory) (a : Nat) (b : Byte), 4096 ≤ a →
    m.write a b = .error (.memBounds a) ∧ m.read a = .error (.memBounds a)

/-- R51: fetch is big-endian. -/
def Obligations.FetchIsBigEndian : Prop :=
  ∀ (m : Memory) (a : Nat), a + 1 < 4096 →
    ∃ w, m.fetchWord a = .ok w ∧ w.toNat = 256 * (m.peek a).toNat + (m.peek (a + 1)).toNat

/-! ## The cycle -/

/-- R90 to R97, in the model's form: when the word at `pc` decodes to `i`, the step is `exec i` on the entry state (keys latched,
word taken, `pc` advanced by 2), followed, unless it faulted, by the two ticks and the clearing of `redraw`. The entry state takes
its keys from `keyIn` or `Config.freeKeys` (D18, log 1); the tick runs in every cycle that does not fault (D28, log 21); the step
itself clears `redraw` (D19, log 19); a fault is a next state (log 5). -/
def Obligations.StepRunsTheDecodedInstruction : Prop :=
  ∀ (s : State) (w : Word) (i : Instr), s.runs w i →
    step s = match exec i (s.entry w) with
      | .next t => .next (if t.fault = none then
          { t with
            dt := if t.dt = 0 then 0 else t.dt - 1
            st := if t.st = 0 then 0 else t.st - 1
            tone := decide (t.st = 1)
            redraw := false } else t)
      | .fault f => .fault f
      | .refused r => .refused r

/-- R91, R95 (no masking by D3, log 13; the record by D22, log 5): a fetch out of bounds records the address it reached, with no
word. That the tone is off in a faulting cycle is DEDUCED from R39 (log 20). -/
def Obligations.FetchOutOfBoundsFaults : Prop :=
  ∀ s : State, s.running → 4095 ≤ s.pc.toNat →
    ∃ t, step s = .next t ∧ t.tone = false ∧
      t.fault = some ⟨3, s.pc, none, if s.pc.toNat = 4095 then 4096 else s.pc.toNat⟩

/-- R80, R92, R95 (the record by D22, log 5): a word that decodes to nothing faults with the word itself. That the tone is off in
a faulting cycle is DEDUCED from R39 (log 20). -/
def Obligations.UnknownOpcodeFaults : Prop :=
  ∀ s : State, s.running → s.pc.toNat + 1 < 4096 → decodeWord (wordAt s.mem s.pc.toNat) = none →
    ∃ t, step s = .next t ∧ t.tone = false ∧
      t.fault = some ⟨1, s.pc, some (wordAt s.mem s.pc.toNat), (wordAt s.mem s.pc.toNat).toNat⟩

/-- R40, R174 (by D22, log 5): once a fault is recorded the block takes no step. -/
def Obligations.StoppedBlockTakesNoStep : Prop :=
  ∀ (s : State) (r : FaultRecord), s.fault = some r → step s = .fault (.stopped r)

/-- Model's choice (log 5, DESIGN CHOICE): a step from a running state answers a next state, the host's fault and refusal never. A
cycle that faults counts as one, so this does not say that the cycle completes (R95) or what the next state holds. -/
def Obligations.RunningBlockAnswersANextState : Prop :=
  ∀ s : State, s.running → ∃ t, step s = .next t

/-- R171, R172, R173 (codes and record by D22, log 5; priority by D23, log 24): a faulting cycle records the address and word of its
own instruction, and each code is raised by no instruction but those R171 lists for it. The clauses on the values rest on the
model's choices: that a fetch with `pc` at or above 4095 raises code 3, and that code 3 records an address of at least 4096, on D3
(log 13); that code 4 records a row of at least 32, on D9 (log 11); that code 5, which R171 lists for CALL, does not occur, on
`STACK_LIMIT` = none, D5 (log 15). That the tone is off in a faulting cycle is DEDUCED from R39 (log 20). -/
def Obligations.FaultRecordNamesTheFaultingInstruction : Prop :=
  ∀ (s t : State) (r : FaultRecord), s.running → step s = .next t → t.fault = some r →
    r.addr = s.pc ∧ t.tone = false ∧
    ((4095 ≤ s.pc.toNat ∧ r.code = 3 ∧ r.instr = none) ∨
     (s.pc.toNat < 4095 ∧ r.instr = some (wordAt s.mem s.pc.toNat) ∧
      ((r.code = 1 ∧ decodeWord (wordAt s.mem s.pc.toNat) = none) ∨
       (r.code = 2 ∧ decodeWord (wordAt s.mem s.pc.toNat) = some .ret) ∨
       (r.code = 3 ∧ 4096 ≤ r.info ∧ ∃ x y n, decodeWord (wordAt s.mem s.pc.toNat) ∈
          [some (.drw x y n), some (.ldB x), some (.ldMemVx x), some (.ldVxMem x)]) ∨
       (r.code = 4 ∧ 32 ≤ r.info ∧ ∃ x y n, decodeWord (wordAt s.mem s.pc.toNat) = some (.drw x y n)))))

/-- R98, R35 (the free vector by D18, log 1; a faulting cycle keeps its keys by log 4): every cycle takes one key
vector, the host's next or a free one, and no instruction changes it. -/
def Obligations.KeysAreLatchedOncePerCycle : Prop :=
  (∀ s t : State, step s = .next t →
    t.keys = s.keyIn.headD (Config.freeKeys s.draws) ∧ t.keyIn = s.keyIn.tail) ∧
  ∀ (i : Instr) (s t : State), exec i s = .next t → t.keys = s.keys ∧ t.keyIn = s.keyIn

/-- R178's tick of the delay timer, and that an instruction other than FX15 leaves `DT` as the cycle found it but for that tick. That
FX15's own cycle and an FX0A that finds no key tick too is D28 (log 21, DESIGN CHOICE). -/
def Obligations.DelayTimerTicksOncePerCycle : Prop :=
  ∀ (s : State) (w : Word) (i : Instr) (u : State), s.runs w i → exec i (s.entry w) = .next u → u.running →
    ∃ t, step s = .next t ∧ t.dt.toNat = u.dt.toNat - 1 ∧
      ((∀ x, i ≠ .ldDtVx x) → t.dt.toNat = s.dt.toNat - 1)

/-- R179's tick of the sound timer; among the cycles that do not fault the tone is triggered in exactly those whose tick takes the
timer to 0 (the pulse is D20). That FX18's own cycle and an FX0A that finds no key tick too is D28 (log 21, DESIGN CHOICE). -/
def Obligations.SoundTimerTriggersTheToneAtZero : Prop :=
  ∀ (s : State) (w : Word) (i : Instr) (u : State), s.runs w i → exec i (s.entry w) = .next u → u.running →
    ∃ t, step s = .next t ∧ t.st.toNat = u.st.toNat - 1 ∧ (t.tone = true ↔ 0 < u.st.toNat ∧ t.st.toNat = 0)

/-! ## Control flow -/

/-- R101: CLS. -/
def Obligations.ClsBlanksTheDisplay : Prop :=
  Selects 0x00E0 0xF0FF (fun _ => .cls) ∧
  ∀ s : State, ∃ t, exec .cls s = .next t ∧ (∀ y x, cell t.display y x = false) ∧ t.redraw = true ∧
    t = { s with display := t.display, redraw := t.redraw } ∧ SameMemory s t

/-- R30: RET pops; on an empty stack it raises `StackUnderflow(pc)`. -/
def Obligations.RetPopsOrUnderflows : Prop :=
  (∀ (s : State) (w : Word) (rest : List Word), s.stack = w :: rest →
    ∃ t, exec .ret s = .next t ∧ t.pc = w ∧ t.stack = rest ∧ t = { s with pc := t.pc, stack := t.stack } ∧ SameMemory s t) ∧
  ∀ s : State, s.stack = [] → ∃ t, exec .ret s = .next t ∧ t.stoppedWith s 2 s.pc.toNat

/-- R103, R161 (JP V0 from general knowledge, D14; log 9): the two jumps. -/
def Obligations.JumpsSetPc : Prop :=
  ∀ (nnn : BitVec 12) (s : State),
    (∃ t, exec (.jp nnn) s = .next t ∧ t.pc.toNat = nnn.toNat ∧ t = { s with pc := t.pc } ∧ SameMemory s t) ∧
    (∃ t, exec (.jpV0 nnn) s = .next t ∧ t.pc.toNat = nnn.toNat + (s.reg 0).toNat ∧ t = { s with pc := t.pc } ∧
      SameMemory s t)

/-- R104, R29 (unbounded stack by D5, log 15): CALL pushes `pc`, already `a + 2`, and jumps; under a numeric limit a full stack
raises `StackOverflow(pc)`. -/
def Obligations.CallPushesTheReturnAddress : Prop :=
  (∀ (nnn : BitVec 12) (s : State),
    ∃ t, exec (.call nnn) s = .next t ∧ t.pc.toNat = nnn.toNat ∧ t.stack = s.pc :: s.stack ∧
      t = { s with pc := t.pc, stack := t.stack } ∧ SameMemory s t) ∧
  ∀ (nnn : BitVec 12) (s : State) (limit : Nat),
    (s.stack.length = limit → callState (some limit) nnn s = .error (.stackOverflow s.pc)) ∧
    (s.stack.length ≠ limit → callState (some limit) nnn s = callState none nnn s)

/-- §8 "Stack balance" (R102, R104; any number by the unbounded stack, D5, log 15): any calls followed by as many
returns give the whole state back. -/
def Obligations.CallsThenAsManyReturnsRestoreTheState : Prop :=
  ∀ (targets : List (BitVec 12)) (s : State),
    execAll (targets.map Instr.call ++ List.replicate targets.length .ret) s = .next s

/-- R100, R105 to R108: the four register skips. -/
def Obligations.RegisterSkipsFollowTheirCondition : Prop :=
  ∀ (x y : RegIx) (kk : Byte) (s : State),
    (∃ t, exec (.seImm x kk) s = .next t ∧ t.pc = (if s.reg x = kk then s.pc + 2 else s.pc) ∧
      t = { s with pc := t.pc } ∧ SameMemory s t) ∧
    (∃ t, exec (.sneImm x kk) s = .next t ∧ t.pc = (if s.reg x = kk then s.pc else s.pc + 2) ∧
      t = { s with pc := t.pc } ∧ SameMemory s t) ∧
    (∃ t, exec (.seReg x y) s = .next t ∧ t.pc = (if s.reg x = s.reg y then s.pc + 2 else s.pc) ∧
      t = { s with pc := t.pc } ∧ SameMemory s t) ∧
    (∃ t, exec (.sneReg x y) s = .next t ∧ t.pc = (if s.reg x = s.reg y then s.pc else s.pc + 2) ∧
      t = { s with pc := t.pc } ∧ SameMemory s t)

/-! ## Registers -/

/-- R109, R110: set and add immediate; the sum is modulo 256 and no flag is written. -/
def Obligations.ImmediateLoadAndAddWriteOneRegister : Prop :=
  ∀ (x : RegIx) (kk : Byte) (s : State),
    (∃ t, exec (.ldImm x kk) s = .next t ∧ t.reg x = kk ∧ (∀ r, r ≠ x → t.reg r = s.reg r) ∧
      t = { s with v := t.v } ∧ SameMemory s t) ∧
    (∃ t, exec (.addImm x kk) s = .next t ∧ (t.reg x).toNat = ((s.reg x).toNat + kk.toNat) % 256 ∧
      (∀ r, r ≠ x → t.reg r = s.reg r) ∧ t = { s with v := t.v } ∧ SameMemory s t)

/-- R111 to R114: move and the bitwise operations; no flag is written. -/
def Obligations.MovesAndLogicWriteOneRegister : Prop :=
  ∀ (x y : RegIx) (s : State),
    (∃ t, exec (.ldReg x y) s = .next t ∧ t.reg x = s.reg y ∧ (∀ r, r ≠ x → t.reg r = s.reg r) ∧
      t = { s with v := t.v } ∧ SameMemory s t) ∧
    (∃ t, exec (.orReg x y) s = .next t ∧ t.reg x = s.reg x ||| s.reg y ∧ (∀ r, r ≠ x → t.reg r = s.reg r) ∧
      t = { s with v := t.v } ∧ SameMemory s t) ∧
    (∃ t, exec (.andReg x y) s = .next t ∧ t.reg x = s.reg x &&& s.reg y ∧ (∀ r, r ≠ x → t.reg r = s.reg r) ∧
      t = { s with v := t.v } ∧ SameMemory s t) ∧
    (∃ t, exec (.xorReg x y) s = .next t ∧ t.reg x = s.reg x ^^^ s.reg y ∧ (∀ r, r ≠ x → t.reg r = s.reg r) ∧
      t = { s with v := t.v } ∧ SameMemory s t)

/-- R162 (the AND from general knowledge, D15; log 10): the host's next byte, or a free one, masked by the immediate. -/
def Obligations.RndMasksTheDrawnByte : Prop :=
  ∀ (x : RegIx) (kk : Byte) (s : State),
    ∃ t, exec (.rnd x kk) s = .next t ∧
      t.reg x = s.rndIn.headD (Config.freeByte s.draws) &&& kk ∧
      t.reg x &&& ~~~kk = 0 ∧ t.rndIn = s.rndIn.tail ∧
      t.draws = (if s.rndIn.isEmpty then s.draws + 1 else s.draws) ∧
      (∀ r, r ≠ x → t.reg r = s.reg r) ∧
      t = { s with v := t.v, rndIn := t.rndIn, draws := t.draws } ∧ SameMemory s t

/-! ## Arithmetic with flags -/

/-- R120: ADD, when neither operand is VF (operands read first by D12, log 22). -/
def Obligations.AddWritesSumAndCarry : Prop :=
  ∀ (x y : RegIx) (s : State), x ≠ VF → y ≠ VF →
    ∃ t, exec (.addReg x y) s = .next t ∧
      (t.reg x).toNat = ((s.reg x).toNat + (s.reg y).toNat) % 256 ∧
      (t.reg VF).toNat = (if (s.reg x).toNat + (s.reg y).toNat > 255 then 1 else 0) ∧
      (∀ r, r ≠ x → r ≠ VF → t.reg r = s.reg r) ∧ t = { s with v := t.v } ∧ SameMemory s t

/-- R121, R122: SUB and SUBN, when neither operand is VF (operands read first by D12, log 22). -/
def Obligations.SubtractionsWriteDifferenceAndNoBorrow : Prop :=
  ∀ (x y : RegIx) (s : State), x ≠ VF → y ≠ VF →
    (∃ t, exec (.subReg x y) s = .next t ∧
      (t.reg x).toNat = (256 + (s.reg x).toNat - (s.reg y).toNat) % 256 ∧
      (t.reg VF).toNat = (if (s.reg y).toNat ≤ (s.reg x).toNat then 1 else 0) ∧
      (∀ r, r ≠ x → r ≠ VF → t.reg r = s.reg r) ∧ t = { s with v := t.v } ∧ SameMemory s t) ∧
    (∃ t, exec (.subnReg x y) s = .next t ∧
      (t.reg x).toNat = (256 + (s.reg y).toNat - (s.reg x).toNat) % 256 ∧
      (t.reg VF).toNat = (if (s.reg x).toNat ≤ (s.reg y).toNat then 1 else 0) ∧
      (∀ r, r ≠ x → r ≠ VF → t.reg r = s.reg r) ∧ t = { s with v := t.v } ∧ SameMemory s t)

/-- R123, R124: SHR and SHL of Vx, when Vx is not VF; Vy is not read (the operand is read first by D12, log 22). -/
def Obligations.ShiftsWriteResultAndBitShiftedOut : Prop :=
  ∀ (x y : RegIx) (s : State), x ≠ VF →
    (∃ t, exec (.shr x y) s = .next t ∧ (t.reg x).toNat = (s.reg x).toNat / 2 ∧
      (t.reg VF).toNat = (s.reg x).toNat % 2 ∧
      (∀ r, r ≠ x → r ≠ VF → t.reg r = s.reg r) ∧ t = { s with v := t.v } ∧ SameMemory s t) ∧
    (∃ t, exec (.shl x y) s = .next t ∧ (t.reg x).toNat = (s.reg x).toNat * 2 % 256 ∧
      (t.reg VF).toNat = (s.reg x).toNat / 128 ∧
      (∀ r, r ≠ x → r ≠ VF → t.reg r = s.reg r) ∧ t = { s with v := t.v } ∧ SameMemory s t)

/-- R125 at `VF_ALIAS` = `Unspecified` (D13, log 3; operands read first by D12, log 22): when VF is an operand, `V[x]` takes a free
value and, where `V[x]` is not VF, VF holds the flag. Nothing rests on the free value. -/
def Obligations.VfOperandLeavesAFreeValue : Prop :=
  ∀ (x y : RegIx) (s : State),
    ((x = VF ∨ y = VF) →
      (∃ t, exec (.addReg x y) s = .next t ∧ t.reg x = Config.freeByte s.draws ∧
        (x ≠ VF → (t.reg VF).toNat = (if (s.reg x).toNat + (s.reg y).toNat > 255 then 1 else 0)) ∧
        (∀ r, r ≠ x → r ≠ VF → t.reg r = s.reg r) ∧ t = { s with v := t.v, draws := s.draws + 1 } ∧ SameMemory s t) ∧
      (∃ t, exec (.subReg x y) s = .next t ∧ t.reg x = Config.freeByte s.draws ∧
        (x ≠ VF → (t.reg VF).toNat = (if (s.reg y).toNat ≤ (s.reg x).toNat then 1 else 0)) ∧
        (∀ r, r ≠ x → r ≠ VF → t.reg r = s.reg r) ∧ t = { s with v := t.v, draws := s.draws + 1 } ∧ SameMemory s t) ∧
      (∃ t, exec (.subnReg x y) s = .next t ∧ t.reg x = Config.freeByte s.draws ∧
        (x ≠ VF → (t.reg VF).toNat = (if (s.reg x).toNat ≤ (s.reg y).toNat then 1 else 0)) ∧
        (∀ r, r ≠ x → r ≠ VF → t.reg r = s.reg r) ∧ t = { s with v := t.v, draws := s.draws + 1 } ∧ SameMemory s t)) ∧
    (∃ t, exec (.shr VF y) s = .next t ∧ t.reg VF = Config.freeByte s.draws ∧
      (∀ r, r ≠ VF → t.reg r = s.reg r) ∧ t = { s with v := t.v, draws := s.draws + 1 } ∧ SameMemory s t) ∧
    (∃ t, exec (.shl VF y) s = .next t ∧ t.reg VF = Config.freeByte s.draws ∧
      (∀ r, r ≠ VF → t.reg r = s.reg r) ∧ t = { s with v := t.v, draws := s.draws + 1 } ∧ SameMemory s t)

/-! ## Draw -/

/-- R130 to R136 (row wrap by D9, log 11; order by D11, log 12; no masking by D3, log 13; the origin read before VF is reset, also
where it stands in VF, by D12, log 22; clip by D10, log 32): with every sprite byte in memory and every
row below 2H, a cell changes exactly when a set sprite bit lands on it, rows wrapping once and columns clipped. -/
def Obligations.DrwTogglesTheCellsUnderTheSprite : Prop :=
  ∀ (x y : RegIx) (n : Nat) (s : State), n < 16 →
    (∀ r, r < n → s.indexAddr r < 4096 ∧ (s.reg y).toNat + r < 64) →
    ∃ t, exec (.drw x y n) s = .next t ∧ t.redraw = true ∧
      (∀ (yy : Fin 32) (xx : Fin 64), cell t.display yy xx ≠ cell s.display yy xx ↔
        ∃ r c, r < n ∧ c < 8 ∧ yy.val = ((s.reg y).toNat + r) % 32 ∧ xx.val = (s.reg x).toNat + c ∧
          (s.mem.peek (s.indexAddr r)).getLsbD (7 - c) = true) ∧
      (∀ r, r ≠ VF → t.reg r = s.reg r) ∧
      t = { s with v := t.v, display := t.display, redraw := t.redraw } ∧ SameMemory s t

/-- R137 (derived there from R131 to R135; D9 to D12, logs 11, 12, 22, 32): after a DRW that does not fault VF is the collision of the
last pixel alone. -/
def Obligations.DrwFlagIsTheLastPixelsCollision : Prop :=
  ∀ (x y : RegIx) (n : Nat) (s t : State), n < 16 → exec (.drw x y n) s = .next t → t.running →
    ((n = 0 ∨ 64 ≤ (s.reg x).toNat) → t.reg VF = 0) ∧
    (0 < n → (s.reg x).toNat < 64 → ∀ (yy : Fin 32) (xx : Fin 64),
      yy.val = ((s.reg y).toNat + (n - 1)) % 32 → xx.val = (s.reg x).toNat + min 7 (63 - (s.reg x).toNat) →
      t.reg VF =
        if (s.mem.peek (s.indexAddr (n - 1))).getLsbD (7 - min 7 (63 - (s.reg x).toNat)) = true ∧
          cell s.display yy xx = true then 1 else 0)

/-- R131, R132, R173 (D3, D9, D22, D23; logs 5, 11, 13, 24): the first row that cannot be drawn faults, its byte before its row. The
origin is read before VF is reset, also where it stands in VF (D12, log 22). -/
def Obligations.DrwFaultsAtTheFirstRowOutOfBounds : Prop :=
  ∀ (x y : RegIx) (n r : Nat) (s : State), r < n →
    (∀ q, q < r → s.indexAddr q < 4096 ∧ (s.reg y).toNat + q < 64) →
    (4096 ≤ s.indexAddr r → ∃ t, exec (.drw x y n) s = .next t ∧ t.stoppedWith s 3 (s.indexAddr r)) ∧
    (s.indexAddr r < 4096 → 64 ≤ (s.reg y).toNat + r →
      ∃ t, exec (.drw x y n) s = .next t ∧ t.stoppedWith s 4 ((s.reg y).toNat + r - 32))

/-- §8 "drawing it again at the same location clears those bits" (R135), for every sprite and display: a second DRW with the same
origin gives the display back. Neither coordinate register is VF, which the first DRW writes. -/
def Obligations.DrawingTwiceRestoresTheDisplay : Prop :=
  ∀ (x y : RegIx) (n : Nat) (s t : State), x ≠ VF → y ≠ VF → exec (.drw x y n) s = .next t → t.running →
    ∃ u, exec (.drw x y n) t = .next u ∧ u.running ∧ u.display = s.display

/-! ## Input -/

/-- R140, R141: the key skips test the key numbered by the low nibble of Vx. -/
def Obligations.KeySkipsTestTheLowNibblesKey : Prop :=
  ∀ (x : RegIx) (k : Fin 16) (s : State), k.val = (s.reg x).toNat % 16 →
    (∃ t, exec (.skp x) s = .next t ∧ t.pc = (if s.keys.get k = true then s.pc + 2 else s.pc) ∧
      t = { s with pc := t.pc } ∧ SameMemory s t) ∧
    (∃ t, exec (.sknp x) s = .next t ∧ t.pc = (if s.keys.get k = true then s.pc else s.pc + 2) ∧
      t = { s with pc := t.pc } ∧ SameMemory s t)

/-- R142: the wait for a key takes the lowest pressed key, or, with none pressed, changes nothing but `pc`, back by 2. -/
def Obligations.WaitForKeyTakesTheLowestOrRepeats : Prop :=
  (∀ (x : RegIx) (k : Fin 16) (s : State), s.keys.get k = true → (∀ j, j < k → s.keys.get j = false) →
    ∃ t, exec (.ldVxK x) s = .next t ∧ (t.reg x).toNat = k.val ∧ (∀ r, r ≠ x → t.reg r = s.reg r) ∧
      t = { s with v := t.v } ∧ SameMemory s t) ∧
  ∀ (x : RegIx) (s : State), (∀ j, s.keys.get j = false) →
    ∃ t, exec (.ldVxK x) s = .next t ∧ t.pc = s.pc - 2 ∧ t = { s with pc := t.pc } ∧ SameMemory s t

/-! ## Timers, index, memory -/

/-- R150, R151, R152: the moves between Vx and the timers, before the tick of their cycle. -/
def Obligations.TimerMovesCopyTheByte : Prop :=
  ∀ (x : RegIx) (s : State),
    (∃ t, exec (.ldVxDt x) s = .next t ∧ t.reg x = s.dt ∧ (∀ r, r ≠ x → t.reg r = s.reg r) ∧
      t = { s with v := t.v } ∧ SameMemory s t) ∧
    (∃ t, exec (.ldDtVx x) s = .next t ∧ t.dt = s.reg x ∧ t = { s with dt := t.dt } ∧ SameMemory s t) ∧
    (∃ t, exec (.ldStVx x) s = .next t ∧ t.st = s.reg x ∧ t = { s with st := t.st } ∧ SameMemory s t)

/-- R153, R154, R160 (LD I from general knowledge, D14; log 9): the three writers of `I`; no flag is written. -/
def Obligations.IndexWritersSetI : Prop :=
  ∀ (x : RegIx) (nnn : BitVec 12) (s : State),
    (∃ t, exec (.addI x) s = .next t ∧ t.i.toNat = (s.i.toNat + (s.reg x).toNat) % 65536 ∧
      t = { s with i := t.i } ∧ SameMemory s t) ∧
    (∃ t, exec (.ldF x) s = .next t ∧ t.i.toNat = 5 * ((s.reg x).toNat % 16) ∧
      t = { s with i := t.i } ∧ SameMemory s t) ∧
    (∃ t, exec (.ldI nnn) s = .next t ∧ t.i.toNat = nnn.toNat ∧ t = { s with i := t.i } ∧ SameMemory s t)

/-- R155, R156 (faults by D3, D22, D23; logs 5, 13, 24): LD B stores the three decimal digits at `I`, `I + 1`, `I + 2`, or faults at
the first address out of bounds. -/
def Obligations.BcdStoresTheDecimalDigits : Prop :=
  ∀ (x : RegIx) (s : State), s.mem.wf →
    (s.indexAddr 2 < 4096 →
      ∃ t, exec (.ldB x) s = .next t ∧
        (t.mem.peek (s.indexAddr 0)).toNat = (s.reg x).toNat / 100 ∧
        (t.mem.peek (s.indexAddr 1)).toNat = (s.reg x).toNat / 10 % 10 ∧
        (t.mem.peek (s.indexAddr 2)).toNat = (s.reg x).toNat % 10 ∧
        (∀ a, (∀ k, k < 3 → a ≠ s.indexAddr k) → t.mem.peek a = s.mem.peek a) ∧
        t = { s with mem := t.mem } ∧ t.mem.wf) ∧
    (4096 ≤ s.indexAddr 2 →
      ∃ t, exec (.ldB x) s = .next t ∧ t.stoppedWith s 3 (max 4096 (s.indexAddr 0)))

/-- R157 (faults by D3, D22, D23; logs 5, 13, 24): LD [I] stores V0 to Vx from `I` on, or faults at the first address out of
bounds; `I` does not advance. -/
def Obligations.DumpStoresTheRegisters : Prop :=
  ∀ (x : RegIx) (s : State), s.mem.wf →
    (s.indexAddr x.val < 4096 →
      ∃ t, exec (.ldMemVx x) s = .next t ∧
        (∀ k, k ≤ x → t.mem.peek (s.indexAddr k.val) = s.reg k) ∧
        (∀ a, (∀ k, k ≤ x → a ≠ s.indexAddr k.val) → t.mem.peek a = s.mem.peek a) ∧
        t = { s with mem := t.mem } ∧ t.mem.wf) ∧
    (4096 ≤ s.indexAddr x.val →
      ∃ t, exec (.ldMemVx x) s = .next t ∧ t.stoppedWith s 3 (max 4096 (s.indexAddr 0)))

/-- R158 (faults by D3, D22, D23; logs 5, 13, 24): LD Vx, [I] loads V0 to Vx from `I` on, or faults at the first address out of
bounds; `I` does not advance. -/
def Obligations.LoadReadsTheRegisters : Prop :=
  ∀ (x : RegIx) (s : State),
    (s.indexAddr x.val < 4096 →
      ∃ t, exec (.ldVxMem x) s = .next t ∧
        (∀ k, k ≤ x → t.reg k = s.mem.peek (s.indexAddr k.val)) ∧
        (∀ r, x < r → t.reg r = s.reg r) ∧
        t = { s with v := t.v } ∧ SameMemory s t) ∧
    (4096 ≤ s.indexAddr x.val →
      ∃ t, exec (.ldVxMem x) s = .next t ∧ t.stoppedWith s 3 (max 4096 (s.indexAddr 0)))

/-- §8 "Register dump/load round-trip" (R157, R158): what was dumped comes back from the same `I`, whatever else has changed. -/
def Obligations.DumpThenLoadRestoresTheRegisters : Prop :=
  ∀ (x : RegIx) (s t u : State), s.mem.wf → exec (.ldMemVx x) s = .next t → t.running → u.mem = t.mem → u.i = t.i →
    ∃ r, exec (.ldVxMem x) u = .next r ∧ ∀ k, k ≤ x → r.reg k = s.reg k

/-- R61 (D21, log 30): bytes dumped are the word the next fetch there reads. -/
def Obligations.StoredBytesAreFetched : Prop :=
  ∀ (x j k : RegIx) (s t : State), s.mem.wf → exec (.ldMemVx x) s = .next t → t.running →
    k.val = j.val + 1 → k ≤ x →
    t.mem.fetchWord (s.indexAddr j.val) = .ok (BitVec.ofNat 16 (256 * (s.reg j).toNat + (s.reg k).toNat))

/-! ## Whole-machine rules -/

/-- R28: no instruction but CALL and RET touches the stack. -/
def Obligations.StackIsTouchedOnlyByCallAndRet : Prop :=
  ∀ (i : Instr) (s t : State), exec i s = .next t → t.running → i ≠ .ret → (∀ nnn, i ≠ .call nnn) → t.stack = s.stack

/-- R36, R55: no instruction but LD B and LD [I] writes memory. -/
def Obligations.MemoryIsWrittenOnlyByTheStores : Prop :=
  ∀ (i : Instr) (s t : State), exec i s = .next t → t.running → (∀ x, i ≠ .ldB x) → (∀ x, i ≠ .ldMemVx x) →
    t.mem = s.mem

/-- R34, R38: no instruction but CLS and DRW writes the display or `redraw`. -/
def Obligations.DisplayIsWrittenOnlyByClsAndDrw : Prop :=
  ∀ (i : Instr) (s t : State), exec i s = .next t → t.running → i ≠ .cls → (∀ x y n, i ≠ .drw x y n) →
    t.display = s.display ∧ t.redraw = s.redraw

/-- R24: no instruction but ANNN, FX1E and FX29 writes `I`. -/
def Obligations.IndexIsWrittenOnlyByItsThree : Prop :=
  ∀ (i : Instr) (s t : State), exec i s = .next t → t.running →
    (∀ nnn, i ≠ .ldI nnn) → (∀ x, i ≠ .addI x) → (∀ x, i ≠ .ldF x) → t.i = s.i

/-- R31, R32: no instruction but FX15 writes `DT`, none but FX18 writes `ST`; no instruction writes `tone`. -/
def Obligations.TimersAreWrittenOnlyByTheirMoves : Prop :=
  ∀ (i : Instr) (s t : State), exec i s = .next t → t.running →
    ((∀ x, i ≠ .ldDtVx x) → t.dt = s.dt) ∧ ((∀ x, i ≠ .ldStVx x) → t.st = s.st) ∧ t.tone = s.tone

/-- R22: VF changes only by the six flag-writing instructions, or as a named destination (X = F). -/
def Obligations.VfChangesOnlyAsFlagOrDestination : Prop :=
  ∀ (i : Instr) (s t : State), exec i s = .next t → t.running → t.reg VF ≠ s.reg VF →
    (∃ x y, i ∈ [.addReg x y, .subReg x y, .shr x y, .subnReg x y, .shl x y]) ∨ (∃ x y n, i = .drw x y n) ∨
    ∃ kk y, i ∈ [.ldImm VF kk, .addImm VF kk, .ldReg VF y, .orReg VF y, .andReg VF y, .xorReg VF y, .rnd VF kk,
      .ldVxDt VF, .ldVxK VF, .ldVxMem VF]

/-- R35, R175: a program learns of the keys by SKP, SKNP and FX0A alone: any other instruction does the same whatever the keys. For
an instruction that faults this is the model's choice (log 4, DESIGN CHOICE): R95 leaves the state unspecified, and the model's free
values there do not depend on the keys, which it keeps. -/
def Obligations.KeysAreSeenOnlyByTheKeyInstructions : Prop :=
  ∀ (i : Instr) (s t : State) (ks : Keys), (∀ x, i ≠ .skp x ∧ i ≠ .sknp x ∧ i ≠ .ldVxK x) →
    exec i s = .next t → exec i { s with keys := ks } = .next { t with keys := ks }

/-- The invariant (R27, R39, R97, R102 and the memory's form) is kept by every cycle, from every state that meets it. Its clauses on
the memory's form (logs 4, 23), the tone of a faulting cycle (DEDUCED, log 20), `redraw` between cycles (D19, log 19) and the bounds
on `pc` and the stack's entries (D3, D4, D14; logs 9, 13, 14) rest on the model's choices. -/
def Obligations.EveryCycleKeepsTheInvariant : Prop :=
  ∀ s t : State, s.Inv → step s = .next t → t.Inv

/-- The invariant holds at reset (the memory's form is log 23's, `redraw` and `tone` at 0 are D8's, log 6). -/
def Obligations.ResetMeetsTheInvariant : Prop := State.reset.Inv

/-- From any ROM the host admits, whatever keys and random bytes it gives, every state a run reaches meets the invariant; so no run
wraps `pc` (R27). The inputs' form is logs 1 and 2, the load logs 17 and 26, the invariant's choices those of the statement above. -/
def Obligations.EveryRunFromABootMeetsTheInvariant : Prop :=
  ∀ (rom : List Byte) (ks : List Keys) (bs : List Byte) (s t : State), boot rom = some s →
    Reaches { s with keyIn := ks, rndIn := bs } t → t.Inv

/-! ## The font parameter -/

/-- R37, R191, R192: `FONT` is a parameter. A boot with any table of 80 bytes leaves byte `k` of it at address `k`, the ROM at 0x200
and 0 elsewhere (D7, log 6), with everything else as reset leaves it; a table of another size is refused (log 31, DESIGN CHOICE);
and loading the default table of D16 (log 7) into the reset state changes nothing. -/
def Obligations.BootLoadsTheFontItIsGiven : Prop :=
  (∀ font rom : List Byte, font.length = 80 → rom.length ≤ 3584 →
    ∃ s, bootFrom font State.reset rom = some s ∧ s = { State.reset with mem := s.mem } ∧ s.mem.wf ∧
      (∀ k (h : k < font.length), s.mem.peek k = font[k]) ∧
      (∀ n (h : n < rom.length), s.mem.peek (0x200 + n) = rom[n]) ∧
      ∀ a, 80 ≤ a → (a < 0x200 ∨ 0x200 + rom.length ≤ a) → s.mem.peek a = 0) ∧
  (∀ font rom : List Byte, font.length ≠ 80 → bootFrom font State.reset rom = none) ∧
  State.reset.withFont fontTable = State.reset
end

