-- ==== Sys2Proof/Laws/State.lean ====
section
/-! SUPPORT. One lemma per field per state update, each true by rfl, so that no proof unfolds a record update. -/

namespace Sys2Proof.Machine

variable (s : State)

/-! ## setReg -/

@[simp] theorem State.setReg_v (x : RegIx) (b : Byte) : (s.setReg x b).v = s.v.set x b := rfl
@[simp] theorem State.setReg_i (x : RegIx) (b : Byte) : (s.setReg x b).i = s.i := rfl
@[simp] theorem State.setReg_pc (x : RegIx) (b : Byte) : (s.setReg x b).pc = s.pc := rfl
@[simp] theorem State.setReg_stack (x : RegIx) (b : Byte) : (s.setReg x b).stack = s.stack := rfl
@[simp] theorem State.setReg_dt (x : RegIx) (b : Byte) : (s.setReg x b).dt = s.dt := rfl
@[simp] theorem State.setReg_st (x : RegIx) (b : Byte) : (s.setReg x b).st = s.st := rfl
@[simp] theorem State.setReg_mem (x : RegIx) (b : Byte) : (s.setReg x b).mem = s.mem := rfl
@[simp] theorem State.setReg_display (x : RegIx) (b : Byte) : (s.setReg x b).display = s.display := rfl
@[simp] theorem State.setReg_keys (x : RegIx) (b : Byte) : (s.setReg x b).keys = s.keys := rfl
@[simp] theorem State.setReg_redraw (x : RegIx) (b : Byte) : (s.setReg x b).redraw = s.redraw := rfl
@[simp] theorem State.setReg_tone (x : RegIx) (b : Byte) : (s.setReg x b).tone = s.tone := rfl
@[simp] theorem State.setReg_fault (x : RegIx) (b : Byte) : (s.setReg x b).fault = s.fault := rfl
@[simp] theorem State.setReg_curAddr (x : RegIx) (b : Byte) : (s.setReg x b).curAddr = s.curAddr := rfl
@[simp] theorem State.setReg_curWord (x : RegIx) (b : Byte) : (s.setReg x b).curWord = s.curWord := rfl
@[simp] theorem State.setReg_keyIn (x : RegIx) (b : Byte) : (s.setReg x b).keyIn = s.keyIn := rfl
@[simp] theorem State.setReg_rndIn (x : RegIx) (b : Byte) : (s.setReg x b).rndIn = s.rndIn := rfl
@[simp] theorem State.setReg_draws (x : RegIx) (b : Byte) : (s.setReg x b).draws = s.draws := rfl

/-! ## setI -/

@[simp] theorem State.setI_v (w : Word) : (s.setI w).v = s.v := rfl
@[simp] theorem State.setI_i (w : Word) : (s.setI w).i = w := rfl
@[simp] theorem State.setI_pc (w : Word) : (s.setI w).pc = s.pc := rfl
@[simp] theorem State.setI_stack (w : Word) : (s.setI w).stack = s.stack := rfl
@[simp] theorem State.setI_dt (w : Word) : (s.setI w).dt = s.dt := rfl
@[simp] theorem State.setI_st (w : Word) : (s.setI w).st = s.st := rfl
@[simp] theorem State.setI_mem (w : Word) : (s.setI w).mem = s.mem := rfl
@[simp] theorem State.setI_display (w : Word) : (s.setI w).display = s.display := rfl
@[simp] theorem State.setI_keys (w : Word) : (s.setI w).keys = s.keys := rfl
@[simp] theorem State.setI_redraw (w : Word) : (s.setI w).redraw = s.redraw := rfl
@[simp] theorem State.setI_tone (w : Word) : (s.setI w).tone = s.tone := rfl
@[simp] theorem State.setI_fault (w : Word) : (s.setI w).fault = s.fault := rfl
@[simp] theorem State.setI_curAddr (w : Word) : (s.setI w).curAddr = s.curAddr := rfl
@[simp] theorem State.setI_curWord (w : Word) : (s.setI w).curWord = s.curWord := rfl
@[simp] theorem State.setI_keyIn (w : Word) : (s.setI w).keyIn = s.keyIn := rfl
@[simp] theorem State.setI_rndIn (w : Word) : (s.setI w).rndIn = s.rndIn := rfl
@[simp] theorem State.setI_draws (w : Word) : (s.setI w).draws = s.draws := rfl

/-! ## setPc -/

@[simp] theorem State.setPc_v (w : Word) : (s.setPc w).v = s.v := rfl
@[simp] theorem State.setPc_i (w : Word) : (s.setPc w).i = s.i := rfl
@[simp] theorem State.setPc_pc (w : Word) : (s.setPc w).pc = w := rfl
@[simp] theorem State.setPc_stack (w : Word) : (s.setPc w).stack = s.stack := rfl
@[simp] theorem State.setPc_dt (w : Word) : (s.setPc w).dt = s.dt := rfl
@[simp] theorem State.setPc_st (w : Word) : (s.setPc w).st = s.st := rfl
@[simp] theorem State.setPc_mem (w : Word) : (s.setPc w).mem = s.mem := rfl
@[simp] theorem State.setPc_display (w : Word) : (s.setPc w).display = s.display := rfl
@[simp] theorem State.setPc_keys (w : Word) : (s.setPc w).keys = s.keys := rfl
@[simp] theorem State.setPc_redraw (w : Word) : (s.setPc w).redraw = s.redraw := rfl
@[simp] theorem State.setPc_tone (w : Word) : (s.setPc w).tone = s.tone := rfl
@[simp] theorem State.setPc_fault (w : Word) : (s.setPc w).fault = s.fault := rfl
@[simp] theorem State.setPc_curAddr (w : Word) : (s.setPc w).curAddr = s.curAddr := rfl
@[simp] theorem State.setPc_curWord (w : Word) : (s.setPc w).curWord = s.curWord := rfl
@[simp] theorem State.setPc_keyIn (w : Word) : (s.setPc w).keyIn = s.keyIn := rfl
@[simp] theorem State.setPc_rndIn (w : Word) : (s.setPc w).rndIn = s.rndIn := rfl
@[simp] theorem State.setPc_draws (w : Word) : (s.setPc w).draws = s.draws := rfl

/-! ## setDt -/

@[simp] theorem State.setDt_v (b : Byte) : (s.setDt b).v = s.v := rfl
@[simp] theorem State.setDt_i (b : Byte) : (s.setDt b).i = s.i := rfl
@[simp] theorem State.setDt_pc (b : Byte) : (s.setDt b).pc = s.pc := rfl
@[simp] theorem State.setDt_stack (b : Byte) : (s.setDt b).stack = s.stack := rfl
@[simp] theorem State.setDt_dt (b : Byte) : (s.setDt b).dt = b := rfl
@[simp] theorem State.setDt_st (b : Byte) : (s.setDt b).st = s.st := rfl
@[simp] theorem State.setDt_mem (b : Byte) : (s.setDt b).mem = s.mem := rfl
@[simp] theorem State.setDt_display (b : Byte) : (s.setDt b).display = s.display := rfl
@[simp] theorem State.setDt_keys (b : Byte) : (s.setDt b).keys = s.keys := rfl
@[simp] theorem State.setDt_redraw (b : Byte) : (s.setDt b).redraw = s.redraw := rfl
@[simp] theorem State.setDt_tone (b : Byte) : (s.setDt b).tone = s.tone := rfl
@[simp] theorem State.setDt_fault (b : Byte) : (s.setDt b).fault = s.fault := rfl
@[simp] theorem State.setDt_curAddr (b : Byte) : (s.setDt b).curAddr = s.curAddr := rfl
@[simp] theorem State.setDt_curWord (b : Byte) : (s.setDt b).curWord = s.curWord := rfl
@[simp] theorem State.setDt_keyIn (b : Byte) : (s.setDt b).keyIn = s.keyIn := rfl
@[simp] theorem State.setDt_rndIn (b : Byte) : (s.setDt b).rndIn = s.rndIn := rfl
@[simp] theorem State.setDt_draws (b : Byte) : (s.setDt b).draws = s.draws := rfl

/-! ## setSt -/

@[simp] theorem State.setSt_v (b : Byte) : (s.setSt b).v = s.v := rfl
@[simp] theorem State.setSt_i (b : Byte) : (s.setSt b).i = s.i := rfl
@[simp] theorem State.setSt_pc (b : Byte) : (s.setSt b).pc = s.pc := rfl
@[simp] theorem State.setSt_stack (b : Byte) : (s.setSt b).stack = s.stack := rfl
@[simp] theorem State.setSt_dt (b : Byte) : (s.setSt b).dt = s.dt := rfl
@[simp] theorem State.setSt_st (b : Byte) : (s.setSt b).st = b := rfl
@[simp] theorem State.setSt_mem (b : Byte) : (s.setSt b).mem = s.mem := rfl
@[simp] theorem State.setSt_display (b : Byte) : (s.setSt b).display = s.display := rfl
@[simp] theorem State.setSt_keys (b : Byte) : (s.setSt b).keys = s.keys := rfl
@[simp] theorem State.setSt_redraw (b : Byte) : (s.setSt b).redraw = s.redraw := rfl
@[simp] theorem State.setSt_tone (b : Byte) : (s.setSt b).tone = s.tone := rfl
@[simp] theorem State.setSt_fault (b : Byte) : (s.setSt b).fault = s.fault := rfl
@[simp] theorem State.setSt_curAddr (b : Byte) : (s.setSt b).curAddr = s.curAddr := rfl
@[simp] theorem State.setSt_curWord (b : Byte) : (s.setSt b).curWord = s.curWord := rfl
@[simp] theorem State.setSt_keyIn (b : Byte) : (s.setSt b).keyIn = s.keyIn := rfl
@[simp] theorem State.setSt_rndIn (b : Byte) : (s.setSt b).rndIn = s.rndIn := rfl
@[simp] theorem State.setSt_draws (b : Byte) : (s.setSt b).draws = s.draws := rfl

/-! ## setMem -/

@[simp] theorem State.setMem_v (m : Memory) : (s.setMem m).v = s.v := rfl
@[simp] theorem State.setMem_i (m : Memory) : (s.setMem m).i = s.i := rfl
@[simp] theorem State.setMem_pc (m : Memory) : (s.setMem m).pc = s.pc := rfl
@[simp] theorem State.setMem_stack (m : Memory) : (s.setMem m).stack = s.stack := rfl
@[simp] theorem State.setMem_dt (m : Memory) : (s.setMem m).dt = s.dt := rfl
@[simp] theorem State.setMem_st (m : Memory) : (s.setMem m).st = s.st := rfl
@[simp] theorem State.setMem_mem (m : Memory) : (s.setMem m).mem = m := rfl
@[simp] theorem State.setMem_display (m : Memory) : (s.setMem m).display = s.display := rfl
@[simp] theorem State.setMem_keys (m : Memory) : (s.setMem m).keys = s.keys := rfl
@[simp] theorem State.setMem_redraw (m : Memory) : (s.setMem m).redraw = s.redraw := rfl
@[simp] theorem State.setMem_tone (m : Memory) : (s.setMem m).tone = s.tone := rfl
@[simp] theorem State.setMem_fault (m : Memory) : (s.setMem m).fault = s.fault := rfl
@[simp] theorem State.setMem_curAddr (m : Memory) : (s.setMem m).curAddr = s.curAddr := rfl
@[simp] theorem State.setMem_curWord (m : Memory) : (s.setMem m).curWord = s.curWord := rfl
@[simp] theorem State.setMem_keyIn (m : Memory) : (s.setMem m).keyIn = s.keyIn := rfl
@[simp] theorem State.setMem_rndIn (m : Memory) : (s.setMem m).rndIn = s.rndIn := rfl
@[simp] theorem State.setMem_draws (m : Memory) : (s.setMem m).draws = s.draws := rfl

/-! ## draw -/

@[simp] theorem State.draw_v (d : Display) : (s.draw d).v = s.v := rfl
@[simp] theorem State.draw_i (d : Display) : (s.draw d).i = s.i := rfl
@[simp] theorem State.draw_pc (d : Display) : (s.draw d).pc = s.pc := rfl
@[simp] theorem State.draw_stack (d : Display) : (s.draw d).stack = s.stack := rfl
@[simp] theorem State.draw_dt (d : Display) : (s.draw d).dt = s.dt := rfl
@[simp] theorem State.draw_st (d : Display) : (s.draw d).st = s.st := rfl
@[simp] theorem State.draw_mem (d : Display) : (s.draw d).mem = s.mem := rfl
@[simp] theorem State.draw_display (d : Display) : (s.draw d).display = d := rfl
@[simp] theorem State.draw_keys (d : Display) : (s.draw d).keys = s.keys := rfl
@[simp] theorem State.draw_redraw (d : Display) : (s.draw d).redraw = true := rfl
@[simp] theorem State.draw_tone (d : Display) : (s.draw d).tone = s.tone := rfl
@[simp] theorem State.draw_fault (d : Display) : (s.draw d).fault = s.fault := rfl
@[simp] theorem State.draw_curAddr (d : Display) : (s.draw d).curAddr = s.curAddr := rfl
@[simp] theorem State.draw_curWord (d : Display) : (s.draw d).curWord = s.curWord := rfl
@[simp] theorem State.draw_keyIn (d : Display) : (s.draw d).keyIn = s.keyIn := rfl
@[simp] theorem State.draw_rndIn (d : Display) : (s.draw d).rndIn = s.rndIn := rfl
@[simp] theorem State.draw_draws (d : Display) : (s.draw d).draws = s.draws := rfl

/-! ## skipIf -/

@[simp] theorem State.skipIf_v (c : Bool) : (s.skipIf c).v = s.v := rfl
@[simp] theorem State.skipIf_i (c : Bool) : (s.skipIf c).i = s.i := rfl
@[simp] theorem State.skipIf_pc (c : Bool) : (s.skipIf c).pc = if c then s.pc + 2 else s.pc := rfl
@[simp] theorem State.skipIf_stack (c : Bool) : (s.skipIf c).stack = s.stack := rfl
@[simp] theorem State.skipIf_dt (c : Bool) : (s.skipIf c).dt = s.dt := rfl
@[simp] theorem State.skipIf_st (c : Bool) : (s.skipIf c).st = s.st := rfl
@[simp] theorem State.skipIf_mem (c : Bool) : (s.skipIf c).mem = s.mem := rfl
@[simp] theorem State.skipIf_display (c : Bool) : (s.skipIf c).display = s.display := rfl
@[simp] theorem State.skipIf_keys (c : Bool) : (s.skipIf c).keys = s.keys := rfl
@[simp] theorem State.skipIf_redraw (c : Bool) : (s.skipIf c).redraw = s.redraw := rfl
@[simp] theorem State.skipIf_tone (c : Bool) : (s.skipIf c).tone = s.tone := rfl
@[simp] theorem State.skipIf_fault (c : Bool) : (s.skipIf c).fault = s.fault := rfl
@[simp] theorem State.skipIf_curAddr (c : Bool) : (s.skipIf c).curAddr = s.curAddr := rfl
@[simp] theorem State.skipIf_curWord (c : Bool) : (s.skipIf c).curWord = s.curWord := rfl
@[simp] theorem State.skipIf_keyIn (c : Bool) : (s.skipIf c).keyIn = s.keyIn := rfl
@[simp] theorem State.skipIf_rndIn (c : Bool) : (s.skipIf c).rndIn = s.rndIn := rfl
@[simp] theorem State.skipIf_draws (c : Bool) : (s.skipIf c).draws = s.draws := rfl

/-! ## afterDraw -/

@[simp] theorem State.afterDraw_v : (s.afterDraw).v = s.v := rfl
@[simp] theorem State.afterDraw_i : (s.afterDraw).i = s.i := rfl
@[simp] theorem State.afterDraw_pc : (s.afterDraw).pc = s.pc := rfl
@[simp] theorem State.afterDraw_stack : (s.afterDraw).stack = s.stack := rfl
@[simp] theorem State.afterDraw_dt : (s.afterDraw).dt = s.dt := rfl
@[simp] theorem State.afterDraw_st : (s.afterDraw).st = s.st := rfl
@[simp] theorem State.afterDraw_mem : (s.afterDraw).mem = s.mem := rfl
@[simp] theorem State.afterDraw_display : (s.afterDraw).display = s.display := rfl
@[simp] theorem State.afterDraw_keys : (s.afterDraw).keys = s.keys := rfl
@[simp] theorem State.afterDraw_redraw : (s.afterDraw).redraw = s.redraw := rfl
@[simp] theorem State.afterDraw_tone : (s.afterDraw).tone = s.tone := rfl
@[simp] theorem State.afterDraw_fault : (s.afterDraw).fault = s.fault := rfl
@[simp] theorem State.afterDraw_curAddr : (s.afterDraw).curAddr = s.curAddr := rfl
@[simp] theorem State.afterDraw_curWord : (s.afterDraw).curWord = s.curWord := rfl
@[simp] theorem State.afterDraw_keyIn : (s.afterDraw).keyIn = s.keyIn := rfl
@[simp] theorem State.afterDraw_rndIn : (s.afterDraw).rndIn = s.rndIn.tail := rfl
@[simp] theorem State.afterDraw_draws : (s.afterDraw).draws = if s.rndIn.isEmpty then s.draws + 1 else s.draws := rfl

/-! ## countDraw -/

@[simp] theorem State.countDraw_v : (s.countDraw).v = s.v := rfl
@[simp] theorem State.countDraw_i : (s.countDraw).i = s.i := rfl
@[simp] theorem State.countDraw_pc : (s.countDraw).pc = s.pc := rfl
@[simp] theorem State.countDraw_stack : (s.countDraw).stack = s.stack := rfl
@[simp] theorem State.countDraw_dt : (s.countDraw).dt = s.dt := rfl
@[simp] theorem State.countDraw_st : (s.countDraw).st = s.st := rfl
@[simp] theorem State.countDraw_mem : (s.countDraw).mem = s.mem := rfl
@[simp] theorem State.countDraw_display : (s.countDraw).display = s.display := rfl
@[simp] theorem State.countDraw_keys : (s.countDraw).keys = s.keys := rfl
@[simp] theorem State.countDraw_redraw : (s.countDraw).redraw = s.redraw := rfl
@[simp] theorem State.countDraw_tone : (s.countDraw).tone = s.tone := rfl
@[simp] theorem State.countDraw_fault : (s.countDraw).fault = s.fault := rfl
@[simp] theorem State.countDraw_curAddr : (s.countDraw).curAddr = s.curAddr := rfl
@[simp] theorem State.countDraw_curWord : (s.countDraw).curWord = s.curWord := rfl
@[simp] theorem State.countDraw_keyIn : (s.countDraw).keyIn = s.keyIn := rfl
@[simp] theorem State.countDraw_rndIn : (s.countDraw).rndIn = s.rndIn := rfl
@[simp] theorem State.countDraw_draws : (s.countDraw).draws = s.draws + 1 := rfl

/-! ## latchKeys -/

@[simp] theorem State.latchKeys_v : (s.latchKeys).v = s.v := rfl
@[simp] theorem State.latchKeys_i : (s.latchKeys).i = s.i := rfl
@[simp] theorem State.latchKeys_pc : (s.latchKeys).pc = s.pc := rfl
@[simp] theorem State.latchKeys_stack : (s.latchKeys).stack = s.stack := rfl
@[simp] theorem State.latchKeys_dt : (s.latchKeys).dt = s.dt := rfl
@[simp] theorem State.latchKeys_st : (s.latchKeys).st = s.st := rfl
@[simp] theorem State.latchKeys_mem : (s.latchKeys).mem = s.mem := rfl
@[simp] theorem State.latchKeys_display : (s.latchKeys).display = s.display := rfl
@[simp] theorem State.latchKeys_keys : (s.latchKeys).keys = s.nextKeys := rfl
@[simp] theorem State.latchKeys_redraw : (s.latchKeys).redraw = s.redraw := rfl
@[simp] theorem State.latchKeys_tone : (s.latchKeys).tone = s.tone := rfl
@[simp] theorem State.latchKeys_fault : (s.latchKeys).fault = s.fault := rfl
@[simp] theorem State.latchKeys_curAddr : (s.latchKeys).curAddr = s.curAddr := rfl
@[simp] theorem State.latchKeys_curWord : (s.latchKeys).curWord = s.curWord := rfl
@[simp] theorem State.latchKeys_keyIn : (s.latchKeys).keyIn = s.keyIn.tail := rfl
@[simp] theorem State.latchKeys_rndIn : (s.latchKeys).rndIn = s.rndIn := rfl
@[simp] theorem State.latchKeys_draws : (s.latchKeys).draws = if s.keyIn.isEmpty then s.draws + 1 else s.draws := rfl

/-! ## advance -/

@[simp] theorem State.advance_v (w : Word) : (s.advance w).v = s.v := rfl
@[simp] theorem State.advance_i (w : Word) : (s.advance w).i = s.i := rfl
@[simp] theorem State.advance_pc (w : Word) : (s.advance w).pc = s.pc + 2 := rfl
@[simp] theorem State.advance_stack (w : Word) : (s.advance w).stack = s.stack := rfl
@[simp] theorem State.advance_dt (w : Word) : (s.advance w).dt = s.dt := rfl
@[simp] theorem State.advance_st (w : Word) : (s.advance w).st = s.st := rfl
@[simp] theorem State.advance_mem (w : Word) : (s.advance w).mem = s.mem := rfl
@[simp] theorem State.advance_display (w : Word) : (s.advance w).display = s.display := rfl
@[simp] theorem State.advance_keys (w : Word) : (s.advance w).keys = s.keys := rfl
@[simp] theorem State.advance_redraw (w : Word) : (s.advance w).redraw = s.redraw := rfl
@[simp] theorem State.advance_tone (w : Word) : (s.advance w).tone = s.tone := rfl
@[simp] theorem State.advance_fault (w : Word) : (s.advance w).fault = s.fault := rfl
@[simp] theorem State.advance_curAddr (w : Word) : (s.advance w).curAddr = s.pc := rfl
@[simp] theorem State.advance_curWord (w : Word) : (s.advance w).curWord = w := rfl
@[simp] theorem State.advance_keyIn (w : Word) : (s.advance w).keyIn = s.keyIn := rfl
@[simp] theorem State.advance_rndIn (w : Word) : (s.advance w).rndIn = s.rndIn := rfl
@[simp] theorem State.advance_draws (w : Word) : (s.advance w).draws = s.draws := rfl

/-! ## tick -/

@[simp] theorem State.tick_v : (s.tick).v = s.v := rfl
@[simp] theorem State.tick_i : (s.tick).i = s.i := rfl
@[simp] theorem State.tick_pc : (s.tick).pc = s.pc := rfl
@[simp] theorem State.tick_stack : (s.tick).stack = s.stack := rfl
@[simp] theorem State.tick_dt : (s.tick).dt = if s.dt = 0 then 0 else s.dt - 1 := rfl
@[simp] theorem State.tick_st : (s.tick).st = if s.st = 0 then 0 else s.st - 1 := rfl
@[simp] theorem State.tick_mem : (s.tick).mem = s.mem := rfl
@[simp] theorem State.tick_display : (s.tick).display = s.display := rfl
@[simp] theorem State.tick_keys : (s.tick).keys = s.keys := rfl
@[simp] theorem State.tick_redraw : (s.tick).redraw = s.redraw := rfl
@[simp] theorem State.tick_tone : (s.tick).tone = decide (s.st = 1) := rfl
@[simp] theorem State.tick_fault : (s.tick).fault = s.fault := rfl
@[simp] theorem State.tick_curAddr : (s.tick).curAddr = s.curAddr := rfl
@[simp] theorem State.tick_curWord : (s.tick).curWord = s.curWord := rfl
@[simp] theorem State.tick_keyIn : (s.tick).keyIn = s.keyIn := rfl
@[simp] theorem State.tick_rndIn : (s.tick).rndIn = s.rndIn := rfl
@[simp] theorem State.tick_draws : (s.tick).draws = s.draws := rfl

/-! ## render -/

@[simp] theorem State.render_v : (s.render).v = s.v := rfl
@[simp] theorem State.render_i : (s.render).i = s.i := rfl
@[simp] theorem State.render_pc : (s.render).pc = s.pc := rfl
@[simp] theorem State.render_stack : (s.render).stack = s.stack := rfl
@[simp] theorem State.render_dt : (s.render).dt = s.dt := rfl
@[simp] theorem State.render_st : (s.render).st = s.st := rfl
@[simp] theorem State.render_mem : (s.render).mem = s.mem := rfl
@[simp] theorem State.render_display : (s.render).display = s.display := rfl
@[simp] theorem State.render_keys : (s.render).keys = s.keys := rfl
@[simp] theorem State.render_redraw : (s.render).redraw = false := rfl
@[simp] theorem State.render_tone : (s.render).tone = s.tone := rfl
@[simp] theorem State.render_fault : (s.render).fault = s.fault := rfl
@[simp] theorem State.render_curAddr : (s.render).curAddr = s.curAddr := rfl
@[simp] theorem State.render_curWord : (s.render).curWord = s.curWord := rfl
@[simp] theorem State.render_keyIn : (s.render).keyIn = s.keyIn := rfl
@[simp] theorem State.render_rndIn : (s.render).rndIn = s.rndIn := rfl
@[simp] theorem State.render_draws : (s.render).draws = s.draws := rfl

/-! ## enterFault and raise -/

@[simp] theorem State.enterFault_v (a : Word) (w : Option Word) (e : Raise) : (s.enterFault a w e).v = (Config.wreck s.draws).v := rfl
@[simp] theorem State.enterFault_i (a : Word) (w : Option Word) (e : Raise) : (s.enterFault a w e).i = (Config.wreck s.draws).i := rfl
@[simp] theorem State.enterFault_pc (a : Word) (w : Option Word) (e : Raise) : (s.enterFault a w e).pc = (Config.wreck s.draws).pc := rfl
@[simp] theorem State.enterFault_stack (a : Word) (w : Option Word) (e : Raise) : (s.enterFault a w e).stack = (Config.wreck s.draws).stack := rfl
@[simp] theorem State.enterFault_dt (a : Word) (w : Option Word) (e : Raise) : (s.enterFault a w e).dt = (Config.wreck s.draws).dt := rfl
@[simp] theorem State.enterFault_st (a : Word) (w : Option Word) (e : Raise) : (s.enterFault a w e).st = (Config.wreck s.draws).st := rfl
@[simp] theorem State.enterFault_mem (a : Word) (w : Option Word) (e : Raise) : (s.enterFault a w e).mem = Memory.ofBytes 0 ((Config.wreck s.draws).bytes.take Config.memSize) := rfl
@[simp] theorem State.enterFault_display (a : Word) (w : Option Word) (e : Raise) : (s.enterFault a w e).display = (Config.wreck s.draws).display := rfl
@[simp] theorem State.enterFault_keys (a : Word) (w : Option Word) (e : Raise) : (s.enterFault a w e).keys = s.keys := rfl
@[simp] theorem State.enterFault_redraw (a : Word) (w : Option Word) (e : Raise) : (s.enterFault a w e).redraw = (Config.wreck s.draws).redraw := rfl
@[simp] theorem State.enterFault_tone (a : Word) (w : Option Word) (e : Raise) : (s.enterFault a w e).tone = false := rfl
@[simp] theorem State.enterFault_fault (a : Word) (w : Option Word) (e : Raise) : (s.enterFault a w e).fault = some ⟨e.code, a, w, e.info⟩ := rfl
@[simp] theorem State.enterFault_curAddr (a : Word) (w : Option Word) (e : Raise) : (s.enterFault a w e).curAddr = s.curAddr := rfl
@[simp] theorem State.enterFault_curWord (a : Word) (w : Option Word) (e : Raise) : (s.enterFault a w e).curWord = s.curWord := rfl
@[simp] theorem State.enterFault_keyIn (a : Word) (w : Option Word) (e : Raise) : (s.enterFault a w e).keyIn = s.keyIn := rfl
@[simp] theorem State.enterFault_rndIn (a : Word) (w : Option Word) (e : Raise) : (s.enterFault a w e).rndIn = s.rndIn := rfl
@[simp] theorem State.enterFault_draws (a : Word) (w : Option Word) (e : Raise) : (s.enterFault a w e).draws = s.draws + 1 := rfl

@[simp] theorem State.raise_v (e : Raise) : (s.raise e).v = (Config.wreck s.draws).v := rfl
@[simp] theorem State.raise_i (e : Raise) : (s.raise e).i = (Config.wreck s.draws).i := rfl
@[simp] theorem State.raise_pc (e : Raise) : (s.raise e).pc = (Config.wreck s.draws).pc := rfl
@[simp] theorem State.raise_stack (e : Raise) : (s.raise e).stack = (Config.wreck s.draws).stack := rfl
@[simp] theorem State.raise_dt (e : Raise) : (s.raise e).dt = (Config.wreck s.draws).dt := rfl
@[simp] theorem State.raise_st (e : Raise) : (s.raise e).st = (Config.wreck s.draws).st := rfl
@[simp] theorem State.raise_mem (e : Raise) : (s.raise e).mem = Memory.ofBytes 0 ((Config.wreck s.draws).bytes.take Config.memSize) := rfl
@[simp] theorem State.raise_display (e : Raise) : (s.raise e).display = (Config.wreck s.draws).display := rfl
@[simp] theorem State.raise_keys (e : Raise) : (s.raise e).keys = s.keys := rfl
@[simp] theorem State.raise_redraw (e : Raise) : (s.raise e).redraw = (Config.wreck s.draws).redraw := rfl
@[simp] theorem State.raise_tone (e : Raise) : (s.raise e).tone = false := rfl
@[simp] theorem State.raise_fault (e : Raise) : (s.raise e).fault = some ⟨e.code, s.curAddr, some s.curWord, e.info⟩ := rfl
@[simp] theorem State.raise_curAddr (e : Raise) : (s.raise e).curAddr = s.curAddr := rfl
@[simp] theorem State.raise_curWord (e : Raise) : (s.raise e).curWord = s.curWord := rfl
@[simp] theorem State.raise_keyIn (e : Raise) : (s.raise e).keyIn = s.keyIn := rfl
@[simp] theorem State.raise_rndIn (e : Raise) : (s.raise e).rndIn = s.rndIn := rfl
@[simp] theorem State.raise_draws (e : Raise) : (s.raise e).draws = s.draws + 1 := rfl

end Sys2Proof.Machine
end

