-- ==== Sys2Proof/Laws/Memory.lean ====
section
/-! SUPPORT. Memory: read after write, the canonical form, bounds, and what a list of writes does (R33, R52, R56, R57). -/

namespace Sys2Proof.Machine

variable {m m' : Memory} {a a' : Nat} {b : Byte}

/-- Every address in the list is at least `a`: what keeps a new front entry in order. -/
abbrev Memory.above (a : Nat) (m : Memory) : Prop := ∀ c ∈ m, a ≤ c.1

@[simp] theorem Memory.peek_nil : Memory.peek [] a = Memory.blank a := rfl

theorem Memory.peek_cons (c : Nat) (d : Byte) : Memory.peek ((c, d) :: m) a = if a = c then d else m.peek a := rfl

theorem Memory.peek_of_lt (h : Memory.above (a + 1) m) : m.peek a = Memory.blank a := by
  induction m with
  | nil => rfl
  | cons c m ih =>
    obtain ⟨c, d⟩ := c
    have hc : a + 1 ≤ c := h (c, d) (by simp)
    rw [Memory.peek_cons, if_neg (by omega)]
    exact ih fun e he => h e (by simp [he])

/-- Reading through a new front entry, listed or not. -/
theorem Memory.peek_list (h : Memory.above (a + 1) m) :
    (Memory.list a b m).peek a' = if a' = a then b else m.peek a' := by
  unfold Memory.list
  split
  · rename_i hb
    split
    · rename_i ha; subst ha; rw [Memory.peek_of_lt h, hb]
    · rfl
  · rfl

theorem Memory.above_of_pairwise {c : Host.Cell} (h : (c :: m).Pairwise fun c d => c.1 < d.1) :
    Memory.above (c.1 + 1) m := fun e he => (List.pairwise_cons.mp h).1 e he

/-- Read after write (R57): the written byte at its address, every other address as before. -/
theorem Memory.peek_poke (h : m.Pairwise fun c d => c.1 < d.1) :
    (m.poke a b).peek a' = if a' = a then b else m.peek a' := by
  induction m with
  | nil => exact Memory.peek_list (m := []) (by simp)
  | cons c m ih =>
    obtain ⟨c, d⟩ := c
    have hm := Memory.above_of_pairwise h
    unfold Memory.poke
    split
    · rename_i hac
      refine Memory.peek_list ?_
      intro e he
      rcases List.mem_cons.mp he with rfl | he
      · exact hac
      · exact Nat.le_trans (Nat.succ_le_succ (Nat.le_of_lt hac)) (hm e he)
    · split
      · rename_i hac
        subst hac
        rw [Memory.peek_list hm, Memory.peek_cons]
        split <;> rfl
      · rename_i h1 h2
        rw [Memory.peek_cons, Memory.peek_cons, ih (List.pairwise_cons.mp h).2]
        by_cases hc : a' = c
        · subst hc; simp [Ne.symm h2]
        · simp [hc]

theorem Memory.mem_list {c : Host.Cell} (h : c ∈ Memory.list a b m) :
    (c = (a, b) ∧ b ≠ Memory.blank a) ∨ c ∈ m := by
  unfold Memory.list at h
  split at h
  · exact .inr h
  · rename_i hb
    rcases List.mem_cons.mp h with h | h
    · exact .inl ⟨h, hb⟩
    · exact .inr h

theorem Memory.pairwise_list (h : m.Pairwise fun c d => c.1 < d.1) (ha : Memory.above (a + 1) m) :
    (Memory.list a b m).Pairwise fun c d => c.1 < d.1 := by
  unfold Memory.list
  split
  · exact h
  · exact List.pairwise_cons.mpr ⟨fun e he => ha e he, h⟩

/-- Every entry of the memory after a write is the written one, or was there before. -/
theorem Memory.mem_poke {c : Host.Cell} (h : c ∈ m.poke a b) : (c = (a, b) ∧ b ≠ Memory.blank a) ∨ c ∈ m := by
  induction m with
  | nil => exact Memory.mem_list h
  | cons e m ih =>
    obtain ⟨e, d⟩ := e
    unfold Memory.poke at h
    split at h
    · exact Memory.mem_list h
    · split at h
      · exact (Memory.mem_list h).imp_right (List.mem_cons_of_mem _)
      · rcases List.mem_cons.mp h with rfl | h
        · simp
        · exact (ih h).imp_right (List.mem_cons_of_mem _)

theorem Memory.pairwise_poke (h : m.Pairwise fun c d => c.1 < d.1) :
    (m.poke a b).Pairwise fun c d => c.1 < d.1 := by
  induction m with
  | nil => exact Memory.pairwise_list .nil (by simp)
  | cons e m ih =>
    obtain ⟨e, d⟩ := e
    have hm := Memory.above_of_pairwise h
    unfold Memory.poke
    split
    · rename_i hae
      refine Memory.pairwise_list h fun c hc => ?_
      rcases List.mem_cons.mp hc with rfl | hc
      · exact hae
      · exact Nat.le_trans (Nat.succ_le_succ (Nat.le_of_lt hae)) (hm c hc)
    · split
      · rename_i hae
        subst hae
        exact Memory.pairwise_list (List.pairwise_cons.mp h).2 hm
      · rename_i h1 h2
        refine List.pairwise_cons.mpr ⟨fun c hc => ?_, ih (List.pairwise_cons.mp h).2⟩
        rcases Memory.mem_poke hc with ⟨rfl, -⟩ | hc
        · exact Nat.lt_of_le_of_ne (Nat.le_of_not_lt h1) (Ne.symm h2)
        · exact hm c hc

/-- A write inside memory keeps the canonical form. -/
theorem Memory.wf_poke (h : m.wf) (ha : a < Config.memSize) : (m.poke a b).wf := by
  refine ⟨Memory.pairwise_poke h.1, fun c hc => ?_⟩
  rcases Memory.mem_poke hc with ⟨rfl, hb⟩ | hc
  · exact ⟨ha, hb⟩
  · exact h.2 c hc

theorem Memory.wf_nil : Memory.wf [] := ⟨.nil, by simp⟩

/-! ## Bounds-checked accesses (R56) -/

theorem Memory.read_of_lt (h : a < Config.memSize) : m.read a = .ok (m.peek a) := if_pos h

theorem Memory.read_of_ge (h : Config.memSize ≤ a) : m.read a = .error (.memBounds a) := if_neg (Nat.not_lt.mpr h)

/-- Everything a read can do. -/
theorem Memory.read_ok : m.read a = .ok b ↔ a < Config.memSize ∧ m.peek a = b := by
  unfold Memory.read; split <;> simp_all

theorem Memory.read_error {e : Raise} : m.read a = .error e ↔ Config.memSize ≤ a ∧ e = .memBounds a := by
  unfold Memory.read; split <;> simp_all [eq_comm]

/-- Everything a write can do. -/
theorem Memory.write_ok : m.write a b = .ok m' ↔ a < Config.memSize ∧ m.poke a b = m' := by
  unfold Memory.write; split <;> simp_all

theorem Memory.write_error {e : Raise} : m.write a b = .error e ↔ Config.memSize ≤ a ∧ e = .memBounds a := by
  unfold Memory.write; split <;> simp_all [eq_comm]

/-! ## Several writes (R52, R156, R157) -/

/-- The writes of a list in order, their bounds not checked. -/
def Memory.pokes (m : Memory) (l : List (Nat × Byte)) : Memory := l.foldl (fun m p => m.poke p.1 p.2) m

@[simp] theorem Memory.pokes_nil : m.pokes [] = m := rfl

@[simp] theorem Memory.pokes_cons (p : Nat × Byte) (l : List (Nat × Byte)) :
    m.pokes (p :: l) = (m.poke p.1 p.2).pokes l := rfl

/-- Writes that are all in bounds succeed, as pokes in order. -/
theorem Memory.writeAll_of_lt {l : List (Nat × Byte)} (h : ∀ p ∈ l, p.1 < Config.memSize) :
    m.writeAll l = .ok (m.pokes l) := by
  induction l generalizing m with
  | nil => rfl
  | cons p l ih =>
    obtain ⟨a, b⟩ := p
    have ha : a < Config.memSize := h (a, b) (by simp)
    rw [Memory.writeAll, Memory.write_ok.mpr ⟨ha, rfl⟩]
    exact ih fun q hq => h q (by simp [hq])

/-- Everything a list of writes can do when it succeeds. -/
theorem Memory.writeAll_ok {l : List (Nat × Byte)} (h : m.writeAll l = .ok m') :
    (∀ p ∈ l, p.1 < Config.memSize) ∧ m' = m.pokes l := by
  induction l generalizing m with
  | nil => simpa [Memory.writeAll, eq_comm] using h
  | cons p l ih =>
    obtain ⟨a, b⟩ := p
    rw [Memory.writeAll] at h
    split at h
    · cases h
    · rename_i m1 hw
      obtain ⟨ha, rfl⟩ := Memory.write_ok.mp hw
      obtain ⟨hl, rfl⟩ := ih h
      exact ⟨fun q hq => by rcases List.mem_cons.mp hq with rfl | hq; exacts [ha, hl q hq], rfl⟩

/-- A list of writes faults at its first address out of bounds (R173). -/
theorem Memory.writeAll_error {l : List (Nat × Byte)} {e : Raise} (h : m.writeAll l = .error e) :
    ∃ l₁ p l₂, l = l₁ ++ p :: l₂ ∧ (∀ q ∈ l₁, q.1 < Config.memSize) ∧ Config.memSize ≤ p.1 ∧ e = .memBounds p.1 := by
  induction l generalizing m with
  | nil => cases h
  | cons p l ih =>
    obtain ⟨a, b⟩ := p
    rw [Memory.writeAll] at h
    split at h
    · rename_i e' hw
      obtain ⟨ha, rfl⟩ := Memory.write_error.mp hw
      cases h
      exact ⟨[], (a, b), l, rfl, by simp, ha, rfl⟩
    · rename_i m1 hw
      obtain ⟨l₁, p, l₂, rfl, h1, h2, h3⟩ := ih h
      refine ⟨(a, b) :: l₁, p, l₂, rfl, fun q hq => ?_, h2, h3⟩
      rcases List.mem_cons.mp hq with rfl | hq
      exacts [(Memory.write_ok.mp hw).1, h1 q hq]

theorem Memory.pairwise_pokes {l : List (Nat × Byte)} (h : m.Pairwise fun c d => c.1 < d.1) :
    (m.pokes l).Pairwise fun c d => c.1 < d.1 := by
  induction l generalizing m with
  | nil => exact h
  | cons p l ih => exact ih (Memory.pairwise_poke h)

theorem Memory.wf_pokes {l : List (Nat × Byte)} (h : m.wf) (hl : ∀ p ∈ l, p.1 < Config.memSize) :
    (m.pokes l).wf := by
  induction l generalizing m with
  | nil => exact h
  | cons p l ih => exact ih (Memory.wf_poke h (hl p (by simp))) fun q hq => hl q (by simp [hq])

/-- A list of writes keeps the canonical form. -/
theorem Memory.wf_writeAll {l : List (Nat × Byte)} (h : m.wf) (hw : m.writeAll l = .ok m') : m'.wf := by
  obtain ⟨hl, rfl⟩ := Memory.writeAll_ok hw
  exact Memory.wf_pokes h hl

/-- Addresses that no write of the list names read as before. -/
theorem Memory.peek_pokes_of_not_mem {l : List (Nat × Byte)} (h : m.Pairwise fun c d => c.1 < d.1)
    (ha : ∀ p ∈ l, p.1 ≠ a) : (m.pokes l).peek a = m.peek a := by
  induction l generalizing m with
  | nil => rfl
  | cons p l ih =>
    rw [Memory.pokes_cons, ih (Memory.pairwise_poke h) fun q hq => ha q (by simp [hq]), Memory.peek_poke h,
      if_neg (Ne.symm (ha p (by simp)))]

/-- With distinct addresses, each address written reads as its byte. -/
theorem Memory.peek_pokes_of_mem {l : List (Nat × Byte)} (h : m.Pairwise fun c d => c.1 < d.1)
    (hl : l.Pairwise fun p q => p.1 ≠ q.1) (hp : (a, b) ∈ l) :
    (m.pokes l).peek a = b := by
  induction l generalizing m with
  | nil => cases hp
  | cons p l ih =>
    have hl' := List.pairwise_cons.mp hl
    rw [Memory.pokes_cons]
    rcases List.mem_cons.mp hp with rfl | hp
    · rw [Memory.peek_pokes_of_not_mem (Memory.pairwise_poke h) fun q hq => Ne.symm (hl'.1 q hq),
        Memory.peek_poke h, if_pos rfl]
    · exact ih (Memory.pairwise_poke h) hl'.2 hp

/-! ## Bytes laid out from an address -/

theorem Memory.above_ofBytes {bs : List Byte} : Memory.above a (Memory.ofBytes a bs) := by
  induction bs generalizing a with
  | nil => simp [Memory.ofBytes]
  | cons b bs ih =>
    intro c hc
    rcases Memory.mem_list hc with ⟨rfl, -⟩ | hc
    · exact Nat.le_refl _
    · exact Nat.le_of_succ_le (ih c hc)

theorem Memory.wf_ofBytes {bs : List Byte} (h : a + bs.length ≤ Config.memSize) : (Memory.ofBytes a bs).wf := by
  induction bs generalizing a with
  | nil => exact Memory.wf_nil
  | cons b bs ih =>
    rw [List.length_cons] at h
    have hw := ih (a := a + 1) (by omega)
    refine ⟨Memory.pairwise_list hw.1 Memory.above_ofBytes, fun c hc => ?_⟩
    rcases Memory.mem_list hc with ⟨rfl, hb⟩ | hc
    · exact ⟨by omega, hb⟩
    · exact hw.2 c hc

/-- What a faulting cycle leaves in memory is in canonical form. -/
theorem Memory.wf_wreck (k : Wreck) : Memory.wf (Memory.ofBytes 0 (k.bytes.take Config.memSize)) :=
  Memory.wf_ofBytes (by simp [List.length_take])

/-- Bytes placed one after the other (R192): each at its own address, every other address as before. -/
theorem Memory.peek_place {bs : List Byte} (h : m.Pairwise fun c d => c.1 < d.1) :
    (m.place a bs).peek a' = if h : a ≤ a' ∧ a' < a + bs.length then bs[a' - a]'(by omega) else m.peek a' := by
  induction bs generalizing m a with
  | nil => simp only [List.length_nil]; rw [dif_neg (by omega)]; rfl
  | cons b bs ih =>
    rw [Memory.place, ih (Memory.pairwise_poke h), Memory.peek_poke h]
    simp only [List.length_cons]
    by_cases h1 : a' = a
    · subst h1
      rw [dif_neg (by omega), if_pos rfl, dif_pos (by omega)]
      simp
    · rw [if_neg h1]
      by_cases h2 : a + 1 ≤ a' ∧ a' < a + 1 + bs.length
      · rw [dif_pos h2, dif_pos (by omega)]
        have : a' - a = (a' - (a + 1)) + 1 := by omega
        simp [this]
      · rw [dif_neg h2, dif_neg (by omega)]

theorem Memory.wf_place {bs : List Byte} (h : m.wf) (ha : a + bs.length ≤ Config.memSize) : (m.place a bs).wf := by
  induction bs generalizing m a with
  | nil => exact h
  | cons b bs ih =>
    rw [List.length_cons] at ha
    exact ih (Memory.wf_poke h (by omega)) (by omega)

/-! ## Fetch (R51, R91) -/

theorem wordOfBytes_eq (hi lo : Byte) : wordOfBytes hi lo = BitVec.ofNat 16 (256 * hi.toNat + lo.toNat) := by
  apply BitVec.eq_of_toNat_eq
  have := lo.isLt
  have := hi.isLt
  simp only [wordOfBytes, BitVec.toNat_append, BitVec.toNat_ofNat]
  rw [← Nat.shiftLeft_add_eq_or_of_lt lo.isLt, Nat.shiftLeft_eq]
  omega

theorem Memory.fetchWord_of_lt (h : a + 1 < Config.memSize) : m.fetchWord a = .ok (wordAt m a) := by
  rw [Memory.fetchWord, Memory.read_of_lt (by omega), Memory.read_of_lt h]
  simp [wordAt, wordOfBytes_eq]

/-- Everything a fetch can do (R91). -/
theorem Memory.fetchWord_ok {w : Word} : m.fetchWord a = .ok w ↔ a + 1 < Config.memSize ∧ wordAt m a = w := by
  constructor
  · intro h
    by_cases ha : a + 1 < Config.memSize
    · rw [Memory.fetchWord_of_lt ha] at h
      exact ⟨ha, by simpa using h⟩
    · rw [Memory.fetchWord] at h
      split at h
      · cases h
      · rw [Memory.read_of_ge (by omega)] at h
        cases h
  · rintro ⟨h, rfl⟩
    exact Memory.fetchWord_of_lt h

theorem Memory.fetchWord_error {e : Raise} :
    m.fetchWord a = .error e ↔
      Config.memSize ≤ a + 1 ∧ e = .memBounds (if Config.memSize ≤ a then a else a + 1) := by
  constructor
  · intro h
    rw [Memory.fetchWord] at h
    split at h
    · rename_i e' he
      obtain ⟨ha, rfl⟩ := Memory.read_error.mp he
      cases h
      exact ⟨by omega, by rw [if_pos ha]⟩
    · rename_i hi hr
      have ha := (Memory.read_ok.mp hr).1
      split at h
      · rename_i e' he
        obtain ⟨ha', rfl⟩ := Memory.read_error.mp he
        cases h
        exact ⟨ha', by rw [if_neg (by omega)]⟩
      · cases h
  · rintro ⟨h, rfl⟩
    by_cases ha : Config.memSize ≤ a
    · rw [Memory.fetchWord, Memory.read_of_ge ha, if_pos ha]
    · rw [Memory.fetchWord, Memory.read_of_lt (by omega), Memory.read_of_ge h, if_neg ha]

end Sys2Proof.Machine
end

