-- ==== Sys2Proof/Laws/Boot.lean ====
section
/-! SUPPORT. What the font load, the ROM load and the boot can do (spec/70_reset_and_hazards.md R190 to R193). -/

namespace Sys2Proof.Machine

variable {s t : State} {font rom : List Byte}

@[simp] theorem State.withFont_mem : (s.withFont font).mem = s.mem.place Config.fontBase font := rfl
@[simp] theorem State.withRom_mem : (s.withRom rom).mem = s.mem.place Config.progStart rom := rfl
theorem State.withFont_frame : s.withFont font = { s with mem := (s.withFont font).mem } := rfl
theorem State.withRom_frame : s.withRom rom = { s with mem := (s.withRom rom).mem } := rfl

/-- Loading the default font into the reset memory, which reads as it already, changes nothing. -/
theorem State.withFont_fontTable : State.reset.withFont fontTable = State.reset := by
  have h : Memory.place [] Config.fontBase fontTable = [] := by decide
  rw [State.withFont_frame, State.withFont_mem]
  exact congrArg (fun m => { State.reset with mem := m }) h

theorem configured_iff : configured font = true ↔ font.length = 80 := by
  have h : Config.admissible Config.memSize Config.progStart Config.fontBase Config.glyphCount Config.glyphBytes 16 = true := by
    decide
  rw [configured, h, Bool.true_and, decide_eq_true_iff]
  exact Iff.rfl

/-- Everything a boot can do: the two loads, or a refusal. -/
theorem bootFrom_eq : bootFrom font s rom =
    if font.length = 80 ∧ rom.length ≤ 3584 then some ((s.withFont font).withRom rom) else none := by
  simp only [bootFrom, configured_iff]
  rfl

theorem boot_eq : boot rom = if rom.length ≤ 3584 then some (State.reset.withRom rom) else none := by
  rw [boot, bootFrom_eq, State.withFont_fontTable]
  simp only [show fontTable.length = 80 from rfl, true_and]

/-- Memory after the two loads (R190 to R192). -/
theorem Memory.peek_loads {m : Memory} (h : m.wf) (hf : font.length = 80) {a : Nat} :
    ((m.place 0 font).place 0x200 rom).peek a =
      if h : 0x200 ≤ a ∧ a < 0x200 + rom.length then rom[a - 0x200]'(by omega)
      else if h : a < 80 then font[a]'(by omega) else m.peek a := by
  rw [Memory.peek_place (Memory.wf_place h (by simp [hf])).1]
  split
  · rfl
  · rw [Memory.peek_place h.1]
    by_cases ha : a < 80
    · rw [dif_pos (by omega), dif_pos ha]; simp
    · rw [dif_neg (by omega), dif_neg ha]

end Sys2Proof.Machine
end

