-- ==== Sys2Proof/Laws/Encoding.lean ====
section
/-! SUPPORT. Words as concatenated fields (R71): each field reads back, the key of such a word (R73), and that every word is one. -/

namespace Sys2Proof

variable (t n : BitVec 4) (x y : RegIx) (nnn : BitVec 12) (kk : Byte)

theorem getLsbD_wordNNN (i : Nat) :
    (wordNNN t nnn).getLsbD i = if i < 12 then nnn.getLsbD i else t.getLsbD (i - 12) :=
  BitVec.getLsbD_append

theorem getLsbD_wordXKK (i : Nat) :
    (wordXKK t x kk).getLsbD i =
      if i < 12 then (if i < 8 then kk.getLsbD i else (BitVec.ofFin (w := 4) x).getLsbD (i - 8)) else t.getLsbD (i - 12) := by
  rw [wordXKK, getLsbD_wordNNN]
  split
  · exact BitVec.getLsbD_append
  · rfl

theorem getLsbD_wordXYN (i : Nat) :
    (wordXYN t x y n).getLsbD i =
      if i < 12 then
        (if i < 8 then (if i < 4 then n.getLsbD i else (BitVec.ofFin (w := 4) y).getLsbD (i - 4))
          else (BitVec.ofFin (w := 4) x).getLsbD (i - 8))
      else t.getLsbD (i - 12) := by
  rw [wordXYN, getLsbD_wordXKK]
  split
  · split
    · exact BitVec.getLsbD_append
    · rfl
  · rfl

/-! ## Fields -/

@[simp] theorem fieldT_wordNNN : fieldT (wordNNN t nnn) = t := by
  apply BitVec.eq_of_getLsbD_eq
  intro i hi
  rw [fieldT, BitVec.getLsbD_extractLsb', getLsbD_wordNNN]
  simp [hi]

@[simp] theorem fieldT_wordXKK : fieldT (wordXKK t x kk) = t := fieldT_wordNNN t _

@[simp] theorem fieldT_wordXYN : fieldT (wordXYN t x y n) = t := fieldT_wordNNN t _

@[simp] theorem fieldNNN_wordNNN : fieldNNN (wordNNN t nnn) = nnn := by
  apply BitVec.eq_of_getLsbD_eq
  intro i hi
  rw [fieldNNN, BitVec.getLsbD_extractLsb', getLsbD_wordNNN]
  simp [hi]

@[simp] theorem fieldX_wordXKK : fieldX (wordXKK t x kk) = x := by
  have : (wordXKK t x kk).extractLsb' 8 4 = BitVec.ofFin (w := 4) x := by
    apply BitVec.eq_of_getLsbD_eq
    intro i hi
    rw [BitVec.getLsbD_extractLsb', getLsbD_wordXKK, if_pos (by omega), if_neg (by omega)]
    simp [hi]
  rw [fieldX, this]

@[simp] theorem fieldX_wordXYN : fieldX (wordXYN t x y n) = x := fieldX_wordXKK t x _

@[simp] theorem fieldKK_wordXKK : fieldKK (wordXKK t x kk) = kk := by
  apply BitVec.eq_of_getLsbD_eq
  intro i hi
  rw [fieldKK, BitVec.getLsbD_extractLsb', getLsbD_wordXKK, if_pos (by omega), if_pos (by omega)]
  simp [hi]

@[simp] theorem fieldY_wordXYN : fieldY (wordXYN t x y n) = y := by
  have : (wordXYN t x y n).extractLsb' 4 4 = BitVec.ofFin (w := 4) y := by
    apply BitVec.eq_of_getLsbD_eq
    intro i hi
    rw [BitVec.getLsbD_extractLsb', getLsbD_wordXYN, if_pos (by omega), if_pos (by omega), if_neg (by omega)]
    simp [hi]
  rw [fieldY, this]

@[simp] theorem fieldN_wordXYN : fieldN (wordXYN t x y n) = n.toNat := by
  have : (wordXYN t x y n).extractLsb' 0 4 = n := by
    apply BitVec.eq_of_getLsbD_eq
    intro i hi
    rw [BitVec.getLsbD_extractLsb', getLsbD_wordXYN, if_pos (by omega), if_pos (by omega), if_pos (by omega)]
    simp [hi]
  rw [fieldN, this]

/-! ## Keys -/

theorem getLsbD_keyMask_top (i : Nat) : (0xF000 : Word).getLsbD i = (decide (i < 16) && decide (12 ≤ i)) := by
  by_cases h : i < 16
  · revert h; revert i; decide
  · simp [h, BitVec.getLsbD_of_ge _ _ (Nat.le_of_not_lt h)]

theorem getLsbD_keyMask_low_byte (i : Nat) :
    (0xF0FF : Word).getLsbD i = (decide (i < 16) && (decide (i < 8) || decide (12 ≤ i))) := by
  by_cases h : i < 16
  · revert h; revert i; decide
  · simp [h, BitVec.getLsbD_of_ge _ _ (Nat.le_of_not_lt h)]

theorem getLsbD_keyMask_low_nibble (i : Nat) :
    (0xF00F : Word).getLsbD i = (decide (i < 16) && (decide (i < 4) || decide (12 ≤ i))) := by
  by_cases h : i < 16
  · revert h; revert i; decide
  · simp [h, BitVec.getLsbD_of_ge _ _ (Nat.le_of_not_lt h)]

/-- The key of a word whose top nibble selects a family by itself. -/
theorem key_top (h : keyMask t = 0xF000) : key (wordNNN t nnn) = wordNNN t 0 := by
  rw [key, fieldT_wordNNN, h]
  apply BitVec.eq_of_getLsbD_eq
  intro i hi
  rw [BitVec.getLsbD_and, getLsbD_keyMask_top, getLsbD_wordNNN, getLsbD_wordNNN]
  split <;> simp <;> omega

/-- The key of a word whose family is selected by its low byte. -/
theorem key_low_byte (h : keyMask t = 0xF0FF) : key (wordXKK t x kk) = wordXKK t 0 kk := by
  rw [key, fieldT_wordXKK, h]
  apply BitVec.eq_of_getLsbD_eq
  intro i hi
  rw [BitVec.getLsbD_and, getLsbD_keyMask_low_byte, getLsbD_wordXKK, getLsbD_wordXKK]
  split
  · split
    · simp; omega
    · rw [show BitVec.ofFin (w := 4) 0 = 0#4 from rfl]; simp; omega
  · simp; omega

/-- The key of a word whose family is selected by its low nibble. -/
theorem key_low_nibble (h : keyMask t = 0xF00F) : key (wordXYN t x y n) = wordXYN t 0 0 n := by
  rw [key, fieldT_wordXYN, h]
  apply BitVec.eq_of_getLsbD_eq
  intro i hi
  rw [BitVec.getLsbD_and, getLsbD_keyMask_low_nibble, getLsbD_wordXYN, getLsbD_wordXYN]
  split
  · split
    · split
      · simp; omega
      · rw [show BitVec.ofFin (w := 4) 0 = 0#4 from rfl]; simp; omega
    · rw [show BitVec.ofFin (w := 4) 0 = 0#4 from rfl]; simp; omega
  · simp; omega

/-- A word whose key is a row's match value decodes by that row (R92). -/
theorem decodeWord_of_key {w p : Word} {r : OpRow} (h : key w = p)
    (hr : opcodeMap.find? (fun r => p == r.pattern) = some r) : decodeWord w = some (r.build w) := by
  rw [decodeWord, h, hr]; rfl

/-- A decoded word's key is the match value of the row it decodes by. -/
theorem decodeWord_some {w : Word} {i : Instr} (h : decodeWord w = some i) :
    ∃ r ∈ opcodeMap, key w = r.pattern ∧ i = r.build w := by
  unfold decodeWord at h
  cases hr : opcodeMap.find? fun r => key w == r.pattern with
  | none => simp [hr] at h
  | some r =>
    rw [hr] at h
    exact ⟨r, List.mem_of_find?_eq_some hr, by simpa using List.find?_some hr, by simpa [eq_comm] using h⟩

/-- A word is no instruction exactly when its key is no row's match value (R80). -/
theorem decodeWord_none {w : Word} : decodeWord w = none ↔ ∀ r ∈ opcodeMap, key w ≠ r.pattern := by
  simp [decodeWord]

/-! ## Every word -/

/-- Every word is its four fields. -/
theorem word_eq_wordXYN (w : Word) : w = wordXYN (fieldT w) (fieldX w) (fieldY w) (w.extractLsb' 0 4) := by
  apply BitVec.eq_of_getLsbD_eq
  intro i hi
  rw [getLsbD_wordXYN, fieldT, fieldX, fieldY]
  simp only [BitVec.getLsbD_extractLsb']
  split
  · split
    · split
      · simp_all
      · rw [show (BitVec.ofFin (w := 4) (w.extractLsb' 4 4).toFin) = w.extractLsb' 4 4 from rfl,
          BitVec.getLsbD_extractLsb', show 4 + (i - 4) = i by omega]
        simp; omega
    · rw [show (BitVec.ofFin (w := 4) (w.extractLsb' 8 4).toFin) = w.extractLsb' 8 4 from rfl,
        BitVec.getLsbD_extractLsb', show 8 + (i - 8) = i by omega]
      simp; omega
  · rw [show 12 + (i - 12) = i by omega]; simp; omega

end Sys2Proof
end

