-- ==== Sys2Proof/Laws/Ops.lean ====
section
/-! SUPPORT. What each shared operation can do, once: registers, display cells, stack, the end of a handler, the ALU writer, the
loads, the sprite rows, and the phases of a cycle. -/

namespace Sys2Proof.Machine

variable {s t : State} {e : Raise}

/-! ## Registers (R20, R21) -/

theorem State.reg_setReg (x y : RegIx) (b : Byte) : (s.setReg x b).reg y = if y = x then b else s.reg y := by
  simp only [State.reg, State.setReg, Vector.get_eq_getElem, Vector.getElem_set, Fin.val_inj, eq_comm]

@[simp] theorem State.reg_setReg_same (x : RegIx) (b : Byte) : (s.setReg x b).reg x = b := by
  rw [State.reg_setReg, if_pos rfl]

theorem State.reg_setReg_ne {x y : RegIx} (b : Byte) (h : y ≠ x) : (s.setReg x b).reg y = s.reg y := by
  rw [State.reg_setReg, if_neg h]

@[simp] theorem State.reg_countDraw (x : RegIx) : s.countDraw.reg x = s.reg x := rfl
@[simp] theorem State.reg_afterDraw (x : RegIx) : s.afterDraw.reg x = s.reg x := rfl
@[simp] theorem State.reg_draw (d : Display) (x : RegIx) : (s.draw d).reg x = s.reg x := rfl

/-- Two register files that agree everywhere are equal. -/
theorem State.v_ext (h : ∀ x, t.reg x = s.reg x) : t.v = s.v := by
  apply Vector.ext
  intro k hk
  have := h ⟨k, hk⟩
  simpa [State.reg, Vector.get_eq_getElem] using this

/-! ## Display (R34) -/

theorem cell_setCell (d : Display) (y y' : Fin Config.height) (x x' : Fin Config.width) (b : Bool) :
    cell (setCell d y x b) y' x' = if y' = y ∧ x' = x then b else cell d y' x' := by
  simp only [cell, setCell, Vector.get_eq_getElem, Vector.getElem_set]
  by_cases hy : y' = y
  · subst hy
    simp only [true_and, if_true, Vector.getElem_set, Fin.val_inj]
    by_cases hx : x' = x
    · simp [hx]
    · simp [hx, Ne.symm hx]
  · have : ¬ (y : Nat) = y' := fun h => hy (Fin.ext h.symm)
    simp [hy, this]

@[simp] theorem cell_blankDisplay (y : Fin Config.height) (x : Fin Config.width) : cell blankDisplay y x = false := by
  simp only [cell, blankDisplay, Vector.get_eq_getElem, Vector.getElem_replicate]

/-- Two displays with equal cells are equal. -/
theorem display_ext {d d' : Display} (h : ∀ y x, cell d y x = cell d' y x) : d = d' := by
  apply Vector.ext
  intro y hy
  apply Vector.ext
  intro x hx
  have := h ⟨y, hy⟩ ⟨x, hx⟩
  simpa [cell, Vector.get_eq_getElem] using this

/-! ## The end of a handler (R10, R172) -/

/-- A handler that may raise always answers a next state: its own, or fault entry. -/
theorem finish_cases {r : Except Raise State} (h : finish s r = .next t) :
    r = .ok t ∨ ∃ e, r = .error e ∧ t = s.raise e := by
  cases r with
  | ok u => left; cases h; rfl
  | error e => right; cases h; exact ⟨e, rfl, rfl⟩

theorem finish_next (r : Except Raise State) : ∃ t, finish s r = .next t := by
  cases r <;> exact ⟨_, rfl⟩

/-! ## Stack (R29, R30) -/

theorem retState_ok (h : retState s = .ok t) : ∃ w rest, s.stack = w :: rest ∧ t = { s with pc := w, stack := rest } := by
  unfold retState State.pop at h
  cases hs : s.stack with
  | nil => simp [hs] at h
  | cons w rest => exact ⟨w, rest, rfl, by simpa [hs, State.setPc, eq_comm] using h⟩

theorem retState_error (h : retState s = .error e) : s.stack = [] ∧ e = .stackUnderflow s.pc := by
  unfold retState State.pop at h
  cases hs : s.stack with
  | nil => exact ⟨rfl, by simpa [hs, eq_comm] using h⟩
  | cons w rest => simp [hs] at h

/-- With no stack limit a call never faults (R104). -/
theorem callState_none (nnn : BitVec 12) :
    callState none nnn s = .ok { s with pc := zext16 nnn, stack := s.pc :: s.stack } := by
  simp [callState, State.push, State.setPc]

/-! ## The ALU writer (R120 to R125) -/

theorem State.alu_of_ne {m : Config.VfAlias} {res flag : Byte → Byte → Byte} {x y : RegIx} (hx : x ≠ VF) (hy : y ≠ VF) :
    s.alu m res flag x y = s.aluFlagLast res flag x y := by
  unfold State.alu; rw [if_neg (by simp [hx, hy])]

theorem State.alu_of_vf {res flag : Byte → Byte → Byte} {x y : RegIx} (h : x = VF ∨ y = VF) :
    s.alu Config.vfAlias res flag x y = s.aluUnspecified flag x y := by
  unfold State.alu; rw [if_pos h]; rfl

/-- The ALU writer touches only V and, where it takes a free value, the count of draws. -/
theorem State.alu_frame (m : Config.VfAlias) (res flag : Byte → Byte → Byte) (x y : RegIx) :
    s.alu m res flag x y =
      { s with v := (s.alu m res flag x y).v, draws := (s.alu m res flag x y).draws } := by
  unfold State.alu
  split
  · cases m <;> rfl
  · rfl

/-! ## Stores and loads (R156 to R158) -/

theorem storeState_ok {l : List (Nat × Byte)} (h : storeState l s = .ok t) :
    ∃ m, s.mem.writeAll l = .ok m ∧ t = { s with mem := m } := by
  unfold storeState at h
  split at h
  · cases h
  · exact ⟨_, ‹_›, by simpa [State.setMem, eq_comm] using h⟩

theorem storeState_of_lt {l : List (Nat × Byte)} (h : ∀ p ∈ l, p.1 < Config.memSize) :
    storeState l s = .ok (s.setMem (s.mem.pokes l)) := by
  rw [storeState, Memory.writeAll_of_lt h]

theorem storeState_error {l : List (Nat × Byte)} (h : storeState l s = .error e) : s.mem.writeAll l = .error e := by
  unfold storeState at h
  split at h
  · rename_i he; cases h; exact he
  · cases h

/-- What the loads do when none faults: the registers of the list hold the bytes at `I` plus their number, the rest keep. -/
theorem loadState_ok {ks : List RegIx} (h : loadState ks s = .ok t) :
    (∀ k ∈ ks, s.indexAddr k.val < Config.memSize) ∧ t = { s with v := t.v } ∧
      ∀ r, t.reg r = if r ∈ ks then s.mem.peek (s.indexAddr r.val) else s.reg r := by
  induction ks generalizing s with
  | nil => cases h; simp
  | cons k ks ih =>
    rw [loadState] at h
    split at h
    · cases h
    · rename_i b hb
      obtain ⟨hk, rfl⟩ := Memory.read_ok.mp hb
      obtain ⟨h1, h2, h3⟩ := ih h
      refine ⟨fun q hq => ?_, by rw [h2]; rfl, fun r => ?_⟩
      · rcases List.mem_cons.mp hq with rfl | hq
        exacts [hk, h1 q hq]
      · rw [h3 r, State.reg_setReg]
        by_cases hr : r ∈ ks
        · simp [hr, State.indexAddr]
        · by_cases hrk : r = k
          · subst hrk; simp [hr]
          · simp [hr, hrk]

theorem loadState_of_lt {ks : List RegIx} (h : ∀ k ∈ ks, s.indexAddr k.val < Config.memSize) :
    ∃ t, loadState ks s = .ok t := by
  induction ks generalizing s with
  | nil => exact ⟨_, rfl⟩
  | cons k ks ih =>
    rw [loadState, Memory.read_of_lt (h k (by simp))]
    exact ih (s := s.setReg k _) fun q hq => h q (by simp [hq])

theorem loadState_error {ks : List RegIx} (h : loadState ks s = .error e) :
    ∃ l₁ k l₂, ks = l₁ ++ k :: l₂ ∧ (∀ q ∈ l₁, s.indexAddr q.val < Config.memSize) ∧
      Config.memSize ≤ s.indexAddr k.val ∧ e = .memBounds (s.indexAddr k.val) := by
  induction ks generalizing s with
  | nil => cases h
  | cons k ks ih =>
    rw [loadState] at h
    split at h
    · rename_i e' he
      obtain ⟨ha, rfl⟩ := Memory.read_error.mp he
      cases h
      exact ⟨[], k, ks, rfl, by simp, ha, rfl⟩
    · rename_i b hb
      obtain ⟨l₁, q, l₂, rfl, h1, h2, h3⟩ := ih h
      refine ⟨k :: l₁, q, l₂, rfl, fun r hr => ?_, h2, h3⟩
      rcases List.mem_cons.mp hr with rfl | hr
      exacts [(Memory.read_ok.mp hb).1, h1 r hr]

theorem bcdHundreds_toNat (b : Byte) : (bcdHundreds b).toNat = b.toNat / 100 := by
  have := b.isLt
  simp [bcdHundreds]; omega

theorem bcdTens_toNat (b : Byte) : (bcdTens b).toNat = b.toNat / 10 % 10 := by
  simp [bcdTens]; omega

theorem bcdUnits_toNat (b : Byte) : (bcdUnits b).toNat = b.toNat % 10 := by
  simp [bcdUnits]; omega

/-- `I + k` grows with `k`, without wrapping (R56). -/
theorem State.indexAddr_eq (s : State) (k : Nat) : s.indexAddr k = s.indexAddr 0 + k := rfl

/-- The registers of a block transfer are numbered 0 to X, in order. -/
theorem regsUpTo_vals (x : RegIx) : (regsUpTo x).map (·.val) = List.range (x.val + 1) := by
  revert x; decide

theorem mem_regsUpTo {x k : RegIx} : k ∈ regsUpTo x ↔ k ≤ x := by
  revert k x; decide

/-! ## The sprite (R130 to R136) -/

theorem wrapRow_true (y : Nat) : wrapRow true y = if 32 ≤ y then y - 32 else y := by
  simp [wrapRow]

/-- With a row below `2H` the target row is the row modulo `H` (R132, at the stated parameter). -/
theorem targetRow_of_lt {y : Nat} (h : y < 64) : targetRow true y = .ok ⟨y % 32, Nat.mod_lt _ (by decide)⟩ := by
  have hw : wrapRow true y = y % 32 := by rw [wrapRow_true]; split <;> omega
  have hlt : wrapRow true y < Config.height := by rw [hw]; exact Nat.mod_lt _ (by decide)
  rw [targetRow, dif_pos hlt]
  simp [hw]

/-- A row at or beyond `2H` raises (R132, at the stated parameter). -/
theorem targetRow_of_ge {y : Nat} (h : 64 ≤ y) : targetRow true y = .error (.drawBounds (y - 32)) := by
  have hw : wrapRow true y = y - 32 := by rw [wrapRow_true, if_pos (by omega)]
  have hge : ¬ wrapRow true y < Config.height := by
    rw [hw]; show ¬ y - 32 < 32; omega
  rw [targetRow, dif_neg hge, hw]

theorem drwState_ok {w : Bool} {x y : RegIx} {n : Nat} (h : drwState w x y n s = .ok t) :
    ∃ p, drawRows w s.mem s.i.toNat (s.reg x).toNat (s.reg y).toNat (List.range n) ⟨s.display, 0⟩ = .ok p ∧
      t = { (s.setReg VF p.vf) with display := p.display, redraw := true } := by
  unfold drwState at h
  split at h
  · cases h
  · exact ⟨_, ‹_›, by simpa [State.draw, eq_comm] using h⟩

theorem drwState_error {w : Bool} {x y : RegIx} {n : Nat} (h : drwState w x y n s = .error e) :
    drawRows w s.mem s.i.toNat (s.reg x).toNat (s.reg y).toNat (List.range n) ⟨s.display, 0⟩ = .error e := by
  unfold drwState at h
  split at h
  · rename_i he; cases h; exact he
  · cases h

/-- The rows of a sprite fault at the first row whose byte or target is out of bounds, the byte first (R173). -/
theorem drawRows_error {w : Bool} {m : Memory} {base x0 y0 : Nat} {rs : List Nat} {p : Canvas}
    (h : drawRows w m base x0 y0 rs p = .error e) :
    ∃ l₁ r l₂, rs = l₁ ++ r :: l₂ ∧
      (∀ q ∈ l₁, base + q < Config.memSize ∧ ∃ y, targetRow w (y0 + q) = .ok y) ∧
      ((Config.memSize ≤ base + r ∧ e = .memBounds (base + r)) ∨
        (base + r < Config.memSize ∧ targetRow w (y0 + r) = .error e)) := by
  induction rs generalizing p with
  | nil => cases h
  | cons r rs ih =>
    rw [drawRows] at h
    split at h
    · rename_i e' he
      obtain ⟨ha, rfl⟩ := Memory.read_error.mp he
      cases h
      exact ⟨[], r, rs, rfl, by simp, .inl ⟨ha, rfl⟩⟩
    · rename_i row hrow
      split at h
      · rename_i e' he
        cases h
        exact ⟨[], r, rs, rfl, by simp, .inr ⟨(Memory.read_ok.mp hrow).1, he⟩⟩
      · rename_i y hy
        obtain ⟨l₁, q, l₂, rfl, h1, h2⟩ := ih h
        refine ⟨r :: l₁, q, l₂, rfl, fun k hk => ?_, h2⟩
        rcases List.mem_cons.mp hk with rfl | hk
        exacts [⟨(Memory.read_ok.mp hrow).1, y, hy⟩, h1 k hk]

theorem drawRows_of_lt {w : Bool} {m : Memory} {base x0 y0 : Nat} {rs : List Nat} {p : Canvas}
    (h : ∀ r ∈ rs, base + r < Config.memSize ∧ ∃ y, targetRow w (y0 + r) = .ok y) :
    ∃ q, drawRows w m base x0 y0 rs p = .ok q := by
  induction rs generalizing p with
  | nil => exact ⟨_, rfl⟩
  | cons r rs ih =>
    obtain ⟨ha, y, hy⟩ := h r (by simp)
    rw [drawRows, Memory.read_of_lt ha]
    simp only [hy]
    exact ih fun q hq => h q (by simp [hq])

/-! ## The end of a cycle (R95 to R97) -/

theorem State.closeCycle_of_fault {r : FaultRecord} (h : s.fault = some r) : s.closeCycle = s := by
  unfold State.closeCycle; rw [h]

theorem State.closeCycle_of_running (h : s.running) : s.closeCycle = s.tick.render := by
  unfold State.closeCycle; rw [h]

theorem State.entry_eq (w : Word) : s.latchKeys.advance w = s.entry w := rfl

/-! ## One step (R90) -/

/-- Everything a step from a running state can do: fault entry at fetch, fault entry at decode, or a handler's outcome and the end
of the cycle. -/
theorem step_cases (hs : s.running) :
    (Config.memSize ≤ s.pc.toNat + 1 ∧
        step s = .next (s.latchKeys.enterFault s.pc none
          (.memBounds (if Config.memSize ≤ s.pc.toNat then s.pc.toNat else s.pc.toNat + 1)))) ∨
    (s.pc.toNat + 1 < Config.memSize ∧ ∃ w, wordAt s.mem s.pc.toNat = w ∧ decodeWord w = none ∧
        step s = .next (s.latchKeys.enterFault s.pc (some w) (.unknownOpcode w))) ∨
    (∃ w i, s.runs w i ∧
        step s = match exec i (s.entry w) with
          | .next t => .next t.closeCycle
          | .fault f => .fault f
          | .refused r => .refused r) := by
  have hstep : step s = cycleFrom s.latchKeys := by
    unfold step; rw [hs]
  have hfetch : s.latchKeys.fetch = s.mem.fetchWord s.pc.toNat := rfl
  by_cases hpc : s.pc.toNat + 1 < Config.memSize
  · cases hd : decodeWord (wordAt s.mem s.pc.toNat) with
    | none =>
      refine .inr (.inl ⟨hpc, _, rfl, hd, ?_⟩)
      rw [hstep, cycleFrom, hfetch, Memory.fetchWord_of_lt hpc]
      simp [hd]
    | some i =>
      refine .inr (.inr ⟨_, i, ⟨hs, hpc, rfl, hd⟩, ?_⟩)
      rw [hstep, cycleFrom, hfetch, Memory.fetchWord_of_lt hpc]
      cases hx : exec i (s.entry (wordAt s.mem s.pc.toNat)) <;> simp [hd, State.entry_eq, hx]
  · refine .inl ⟨by omega, ?_⟩
    rw [hstep, cycleFrom, hfetch, Memory.fetchWord_error.mpr ⟨by omega, rfl⟩]
    rfl

end Sys2Proof.Machine
end

