-- ==== Sys2Proof/Laws/Exec.lean ====
section
/-! SUPPORT. What every handler does: it always answers a next state, which is its own effect or fault entry for the running
instruction (R94, R95). -/

namespace Sys2Proof.Machine

/-- No handler ends in the host's fault or refusal. -/
theorem exec_next (i : Instr) (s : State) : ∃ t, exec i s = .next t := by
  cases i <;> first | exact ⟨_, rfl⟩ | exact finish_next _

/-- What a handler does when it raises nothing, as a relation: the effect of each instruction on the fields it may write. -/
def HandlerEffect (i : Instr) (s t : State) : Prop :=
  match i with
  | .cls => t = s.draw blankDisplay
  | .ret => retState s = .ok t
  | .jp nnn => t = s.setPc (zext16 nnn)
  | .call nnn => t = { s with pc := zext16 nnn, stack := s.pc :: s.stack }
  | .seImm x kk => t = s.skipIf (decide (s.reg x = kk))
  | .sneImm x kk => t = s.skipIf (decide (s.reg x ≠ kk))
  | .seReg x y => t = s.skipIf (decide (s.reg x = s.reg y))
  | .ldImm x kk => t = s.setReg x kk
  | .addImm x kk => t = s.setReg x (BitVec.ofNat 8 ((s.reg x).toNat + kk.toNat))
  | .ldReg x y => t = s.setReg x (s.reg y)
  | .orReg x y => t = s.setReg x (s.reg x ||| s.reg y)
  | .andReg x y => t = s.setReg x (s.reg x &&& s.reg y)
  | .xorReg x y => t = s.setReg x (s.reg x ^^^ s.reg y)
  | .addReg x y => t = s.alu Config.vfAlias addRes addFlag x y
  | .subReg x y => t = s.alu Config.vfAlias subRes subFlag x y
  | .shr x _ => t = s.alu Config.vfAlias shrRes shrFlag x x
  | .subnReg x y => t = s.alu Config.vfAlias subnRes subnFlag x y
  | .shl x _ => t = s.alu Config.vfAlias shlRes shlFlag x x
  | .sneReg x y => t = s.skipIf (decide (s.reg x ≠ s.reg y))
  | .ldI nnn => t = s.setI (zext16 nnn)
  | .jpV0 nnn => t = s.setPc (zext16 nnn + (s.reg 0).setWidth 16)
  | .rnd x kk => t = s.afterDraw.setReg x (s.drawnByte &&& kk)
  | .drw x y n => drwState Config.rowWrapAtH x y n s = .ok t
  | .skp x => t = s.skipIf (s.keyPressed x)
  | .sknp x => t = s.skipIf (!s.keyPressed x)
  | .ldVxDt x => t = s.setReg x s.dt
  | .ldVxK x => (∃ k, firstPressed s.keys = some k ∧ t = s.setReg x (BitVec.ofNat 8 k.val)) ∨
      (firstPressed s.keys = none ∧ t = s.setPc (s.pc - 2))
  | .ldDtVx x => t = s.setDt (s.reg x)
  | .ldStVx x => t = s.setSt (s.reg x)
  | .addI x => t = s.setI (BitVec.ofNat 16 (s.i.toNat + (s.reg x).toNat))
  | .ldF x => t = s.setI (BitVec.ofNat 16 (Config.fontBase + Config.glyphBytes * ((s.reg x).toNat % 16)))
  | .ldB x => storeState (bcdStores x s) s = .ok t
  | .ldMemVx x => storeState (dumpStores x s) s = .ok t
  | .ldVxMem x => loadState (regsUpTo x) s = .ok t

/-- Everything a handler can do: its effect, or fault entry. -/
theorem exec_cases {i : Instr} {s t : State} (h : exec i s = .next t) :
    HandlerEffect i s t ∨ ∃ e, t = s.raise e := by
  cases i
  case ret => exact (finish_cases h).imp id fun ⟨e, _, he⟩ => ⟨e, he⟩
  case drw => exact (finish_cases h).imp id fun ⟨e, _, he⟩ => ⟨e, he⟩
  case ldB => exact (finish_cases h).imp id fun ⟨e, _, he⟩ => ⟨e, he⟩
  case ldMemVx => exact (finish_cases h).imp id fun ⟨e, _, he⟩ => ⟨e, he⟩
  case ldVxMem => exact (finish_cases h).imp id fun ⟨e, _, he⟩ => ⟨e, he⟩
  case call nnn =>
    left
    have h' : finish s (callState none nnn s) = .next t := h
    rw [callState_none] at h'
    cases h'; rfl
  case ldVxK x =>
    left
    cases h
    cases hk : firstPressed s.keys with
    | none => exact .inr ⟨hk, by simp [State.setPc]⟩
    | some k => exact .inl ⟨k, hk, by simp [State.setReg]⟩
  all_goals (left; cases h; rfl)

/-- A handler that raised nothing leaves `fault` as it was. -/
theorem HandlerEffect.fault {i : Instr} {s t : State} (h : HandlerEffect i s t) : t.fault = s.fault := by
  cases i
  case ret => obtain ⟨_, _, _, rfl⟩ := retState_ok h; rfl
  case drw => obtain ⟨_, _, rfl⟩ := drwState_ok h; rfl
  case ldB => obtain ⟨_, _, rfl⟩ := storeState_ok h; rfl
  case ldMemVx => obtain ⟨_, _, rfl⟩ := storeState_ok h; rfl
  case ldVxMem => rw [(loadState_ok h).2.1]
  case ldVxK => rcases h with ⟨_, _, rfl⟩ | ⟨_, rfl⟩ <;> rfl
  case addReg => cases h; rw [State.alu_frame]
  case subReg => cases h; rw [State.alu_frame]
  case subnReg => cases h; rw [State.alu_frame]
  case shr => cases h; rw [State.alu_frame]
  case shl => cases h; rw [State.alu_frame]
  all_goals (cases h; rfl)

/-- A handler whose state still runs did its effect. -/
theorem exec_running {i : Instr} {s t : State} (h : exec i s = .next t) (ht : t.running) : HandlerEffect i s t := by
  rcases exec_cases h with h | ⟨e, rfl⟩
  · exact h
  · simp [State.running] at ht

end Sys2Proof.Machine
end

