-- ==== Sys2Proof/Laws/PerInstr.lean ====
section
/-! SUPPORT. Family EncodeKey: the key of every instruction's word is the match value of its row (R73, R76). -/

namespace Sys2Proof.Laws.EncodeKey

/-- The match value of an instruction's row (R76). -/
def rowPattern : Instr → Word
  | .cls => 0x00E0
  | .ret => 0x00EE
  | .jp _ => 0x1000
  | .call _ => 0x2000
  | .seImm _ _ => 0x3000
  | .sneImm _ _ => 0x4000
  | .seReg _ _ => 0x5000
  | .ldImm _ _ => 0x6000
  | .addImm _ _ => 0x7000
  | .ldReg _ _ => 0x8000
  | .orReg _ _ => 0x8001
  | .andReg _ _ => 0x8002
  | .xorReg _ _ => 0x8003
  | .addReg _ _ => 0x8004
  | .subReg _ _ => 0x8005
  | .shr _ _ => 0x8006
  | .subnReg _ _ => 0x8007
  | .shl _ _ => 0x800E
  | .sneReg _ _ => 0x9000
  | .ldI _ => 0xA000
  | .jpV0 _ => 0xB000
  | .rnd _ _ => 0xC000
  | .drw _ _ _ => 0xD000
  | .skp _ => 0xE09E
  | .sknp _ => 0xE0A1
  | .ldVxDt _ => 0xF007
  | .ldVxK _ => 0xF00A
  | .ldDtVx _ => 0xF015
  | .ldStVx _ => 0xF018
  | .addI _ => 0xF01E
  | .ldF _ => 0xF029
  | .ldB _ => 0xF033
  | .ldMemVx _ => 0xF055
  | .ldVxMem _ => 0xF065

/-- The word of `i` has the key of `i`'s row. -/
def Statement (i : Instr) : Prop := key (encode i) = rowPattern i

theorem cls : Statement .cls := by rw [Statement]; decide
theorem ret : Statement .ret := by rw [Statement]; decide
theorem jp (nnn : BitVec 12) : Statement (.jp nnn) := key_top 0x1 _ (by decide)
theorem call (nnn : BitVec 12) : Statement (.call nnn) := key_top 0x2 _ (by decide)
theorem seImm (x : RegIx) (kk : Byte) : Statement (.seImm x kk) := key_top 0x3 _ (by decide)
theorem sneImm (x : RegIx) (kk : Byte) : Statement (.sneImm x kk) := key_top 0x4 _ (by decide)
theorem seReg (x y : RegIx) : Statement (.seReg x y) := key_top 0x5 _ (by decide)
theorem ldImm (x : RegIx) (kk : Byte) : Statement (.ldImm x kk) := key_top 0x6 _ (by decide)
theorem addImm (x : RegIx) (kk : Byte) : Statement (.addImm x kk) := key_top 0x7 _ (by decide)
theorem ldReg (x y : RegIx) : Statement (.ldReg x y) := key_low_nibble 0x8 0x0 x y (by decide)
theorem orReg (x y : RegIx) : Statement (.orReg x y) := key_low_nibble 0x8 0x1 x y (by decide)
theorem andReg (x y : RegIx) : Statement (.andReg x y) := key_low_nibble 0x8 0x2 x y (by decide)
theorem xorReg (x y : RegIx) : Statement (.xorReg x y) := key_low_nibble 0x8 0x3 x y (by decide)
theorem addReg (x y : RegIx) : Statement (.addReg x y) := key_low_nibble 0x8 0x4 x y (by decide)
theorem subReg (x y : RegIx) : Statement (.subReg x y) := key_low_nibble 0x8 0x5 x y (by decide)
theorem shr (x y : RegIx) : Statement (.shr x y) := key_low_nibble 0x8 0x6 x y (by decide)
theorem subnReg (x y : RegIx) : Statement (.subnReg x y) := key_low_nibble 0x8 0x7 x y (by decide)
theorem shl (x y : RegIx) : Statement (.shl x y) := key_low_nibble 0x8 0xE x y (by decide)
theorem sneReg (x y : RegIx) : Statement (.sneReg x y) := key_top 0x9 _ (by decide)
theorem ldI (nnn : BitVec 12) : Statement (.ldI nnn) := key_top 0xA _ (by decide)
theorem jpV0 (nnn : BitVec 12) : Statement (.jpV0 nnn) := key_top 0xB _ (by decide)
theorem rnd (x : RegIx) (kk : Byte) : Statement (.rnd x kk) := key_top 0xC _ (by decide)
theorem drw (x y : RegIx) (n : Nat) : Statement (.drw x y n) := key_top 0xD _ (by decide)
theorem skp (x : RegIx) : Statement (.skp x) := key_low_byte 0xE x 0x9E (by decide)
theorem sknp (x : RegIx) : Statement (.sknp x) := key_low_byte 0xE x 0xA1 (by decide)
theorem ldVxDt (x : RegIx) : Statement (.ldVxDt x) := key_low_byte 0xF x 0x07 (by decide)
theorem ldVxK (x : RegIx) : Statement (.ldVxK x) := key_low_byte 0xF x 0x0A (by decide)
theorem ldDtVx (x : RegIx) : Statement (.ldDtVx x) := key_low_byte 0xF x 0x15 (by decide)
theorem ldStVx (x : RegIx) : Statement (.ldStVx x) := key_low_byte 0xF x 0x18 (by decide)
theorem addI (x : RegIx) : Statement (.addI x) := key_low_byte 0xF x 0x1E (by decide)
theorem ldF (x : RegIx) : Statement (.ldF x) := key_low_byte 0xF x 0x29 (by decide)
theorem ldB (x : RegIx) : Statement (.ldB x) := key_low_byte 0xF x 0x33 (by decide)
theorem ldMemVx (x : RegIx) : Statement (.ldMemVx x) := key_low_byte 0xF x 0x55 (by decide)
theorem ldVxMem (x : RegIx) : Statement (.ldVxMem x) := key_low_byte 0xF x 0x65 (by decide)

end Sys2Proof.Laws.EncodeKey
end

