-- ==== Sys2Proof/Machine/Assembly.lean ====
section
/-! DEFINITION. The assembler syntax of spec/30_encoding.md R82: the `mnemonic` and `operands` columns of R76, the destination first.
A name only: no meaning reads it (log 33). -/

namespace Sys2Proof.Machine

/-- A hexadecimal digit, upper case. -/
def hexDigit (n : Nat) : Char := ['0', '1', '2', '3', '4', '5', '6', '7', '8', '9', 'A', 'B', 'C', 'D', 'E', 'F'].getD n '?'

/-- `V0` to `VF`. -/
def asmReg (x : RegIx) : String := String.ofList ['V', hexDigit x.val]

/-- An immediate byte, hexadecimal with `0x`. -/
def asmByte (kk : Byte) : String := String.ofList ['0', 'x', hexDigit (kk.toNat / 16), hexDigit (kk.toNat % 16)]

/-- An address, hexadecimal with `0x`. -/
def asmAddr (nnn : BitVec 12) : String :=
  String.ofList ['0', 'x', hexDigit (nnn.toNat / 256), hexDigit (nnn.toNat / 16 % 16), hexDigit (nnn.toNat % 16)]

/-- A row count, decimal. -/
def asmCount (n : Nat) : String := Nat.repr n

/-- The mnemonic of an instruction and its operands (R76, R82). -/
def asmParts : Instr → String × List String
  | .cls => ("CLS", [])
  | .ret => ("RET", [])
  | .jp nnn => ("JP", [asmAddr nnn])
  | .call nnn => ("CALL", [asmAddr nnn])
  | .seImm x kk => ("SE", [asmReg x, asmByte kk])
  | .sneImm x kk => ("SNE", [asmReg x, asmByte kk])
  | .seReg x y => ("SE", [asmReg x, asmReg y])
  | .ldImm x kk => ("LD", [asmReg x, asmByte kk])
  | .addImm x kk => ("ADD", [asmReg x, asmByte kk])
  | .ldReg x y => ("LD", [asmReg x, asmReg y])
  | .orReg x y => ("OR", [asmReg x, asmReg y])
  | .andReg x y => ("AND", [asmReg x, asmReg y])
  | .xorReg x y => ("XOR", [asmReg x, asmReg y])
  | .addReg x y => ("ADD", [asmReg x, asmReg y])
  | .subReg x y => ("SUB", [asmReg x, asmReg y])
  | .shr x _ => ("SHR", [asmReg x])
  | .subnReg x y => ("SUBN", [asmReg x, asmReg y])
  | .shl x _ => ("SHL", [asmReg x])
  | .sneReg x y => ("SNE", [asmReg x, asmReg y])
  | .ldI nnn => ("LD", ["I", asmAddr nnn])
  | .jpV0 nnn => ("JP", [asmReg 0, asmAddr nnn])
  | .rnd x kk => ("RND", [asmReg x, asmByte kk])
  | .drw x y n => ("DRW", [asmReg x, asmReg y, asmCount n])
  | .skp x => ("SKP", [asmReg x])
  | .sknp x => ("SKNP", [asmReg x])
  | .ldVxDt x => ("LD", [asmReg x, "DT"])
  | .ldVxK x => ("LD", [asmReg x, "K"])
  | .ldDtVx x => ("LD", ["DT", asmReg x])
  | .ldStVx x => ("LD", ["ST", asmReg x])
  | .addI x => ("ADD", ["I", asmReg x])
  | .ldF x => ("LD", ["F", asmReg x])
  | .ldB x => ("LD", ["B", asmReg x])
  | .ldMemVx x => ("LD", ["[I]", asmReg x])
  | .ldVxMem x => ("LD", [asmReg x, "[I]"])

/-- An instruction as text: the mnemonic, then the operands separated by commas (R82). -/
def asm (i : Instr) : String :=
  match asmParts i with
  | (mnemonic, []) => mnemonic
  | (mnemonic, operands) => mnemonic ++ " " ++ ", ".intercalate operands

end Sys2Proof.Machine
end

