-- ==== Sys2Proof/Tests/Slice0.lean ====
section
/-! SUPPORT. Tests and witnesses. Each expected value is the spec's own: spec/95_test_vectors.md (its section number is in the test's
comment) or the Example line of the rule named. A witness shows states and operands that meet all hypotheses of an obligation. -/

namespace Sys2Proof.Tests

open Sys2Proof Sys2Proof.Machine

/-! ## Small states -/

/-- Registers set on top of a state. -/
def withRegs (l : List (RegIx × Byte)) (s : State) : State := l.foldl (fun s p => s.setReg p.1 p.2) s

/-- The reset state with some registers set. -/
def regs (l : List (RegIx × Byte)) : State := withRegs l State.reset

/-- Exactly the listed keys pressed. -/
def pressing (l : List (Fin 16)) : Keys := l.foldl (fun ks k => ks.set k.val true k.isLt) (Vector.replicate 16 false)

/-- A blank display with the listed (row, column) cells set. -/
def lit (l : List (Fin 32 × Fin 64)) : Display := l.foldl (fun d p => setCell d p.1 p.2 true) blankDisplay

/-- An outcome is a next state with the property. -/
def after (o : Host.Outcome State Fault Refusal) (p : State → Bool) : Bool :=
  match o with
  | .next t => p t
  | .fault _ => false
  | .refused _ => false

/-- One cycle that fetches `w` ends in a state with the property. -/
def lands (w : Nat) (s : State) (p : State → Bool) : Bool := after (step (s.withFetchWord 16 w)) p

/-- The cells of a display that are on in the given rows and columns. -/
def onCells (d : Display) (l : List (Fin 32 × Fin 64)) : List Bool := l.map fun p => cell d p.1 p.2

theorem exists_next {o : Host.Outcome State Fault Refusal} {p : State → Bool} (h : after o p = true) :
    ∃ t, o = .next t ∧ p t = true := by
  cases o with
  | next t => exact ⟨t, rfl, h⟩
  | fault f => cases h
  | refused r => cases h

/-! ## Well-formedness -/

theorem test_ill_formed_row_count_refused : (Instr.drw 0 0 16).wellFormed = false := by decide
theorem test_largest_row_count_accepted : (Instr.drw 15 15 15).wellFormed = true := by decide

/-! ## Decode: one word per constructor, written from R76's match value and R71's fields -/

theorem test_decode_control :
    decodeWord 0b0000_0000_1110_0000 = some .cls ∧
    decodeWord 0b0000_0000_1110_1110 = some .ret ∧
    decodeWord 0b0001_0010_0011_0100 = some (.jp 0x234) ∧
    decodeWord 0b0010_0010_0001_0000 = some (.call 0x210) ∧
    decodeWord 0b1011_1111_1111_1111 = some (.jpV0 0xFFF) := by decide
theorem test_decode_skips :
    decodeWord 0b0011_0011_0001_0000 = some (.seImm 3 0x10) ∧
    decodeWord 0b0100_0011_0001_0001 = some (.sneImm 3 0x11) ∧
    decodeWord 0b0101_0001_0010_0000 = some (.seReg 1 2) ∧
    decodeWord 0b1001_0001_0010_0000 = some (.sneReg 1 2) := by decide
theorem test_decode_register :
    decodeWord 0b0110_0000_1110_1010 = some (.ldImm 0 0xEA) ∧
    decodeWord 0b0111_0001_0000_0011 = some (.addImm 1 3) ∧
    decodeWord 0b1000_0001_0010_0000 = some (.ldReg 1 2) ∧
    decodeWord 0b1000_0001_0010_0001 = some (.orReg 1 2) ∧
    decodeWord 0b1000_0001_0010_0010 = some (.andReg 1 2) ∧
    decodeWord 0b1000_0001_0010_0011 = some (.xorReg 1 2) ∧
    decodeWord 0b1100_0001_0000_1111 = some (.rnd 1 0x0F) := by decide
theorem test_decode_arithmetic :
    decodeWord 0b1000_0001_0010_0100 = some (.addReg 1 2) ∧
    decodeWord 0b1000_0001_0010_0101 = some (.subReg 1 2) ∧
    decodeWord 0b1000_0100_1111_0110 = some (.shr 4 15) ∧
    decodeWord 0b1000_0001_0010_0111 = some (.subnReg 1 2) ∧
    decodeWord 0b1000_0100_0000_1110 = some (.shl 4 0) := by decide
theorem test_decode_draw_and_input :
    decodeWord 0b1101_0000_0001_0101 = some (.drw 0 1 5) ∧
    decodeWord 0b1110_0010_1001_1110 = some (.skp 2) ∧
    decodeWord 0b1110_0010_1010_0001 = some (.sknp 2) ∧
    decodeWord 0b1111_0011_0000_1010 = some (.ldVxK 3) := by decide
theorem test_decode_timers_index_memory :
    decodeWord 0b1111_0101_0000_0111 = some (.ldVxDt 5) ∧
    decodeWord 0b1111_0000_0001_0101 = some (.ldDtVx 0) ∧
    decodeWord 0b1111_0000_0001_1000 = some (.ldStVx 0) ∧
    decodeWord 0b1111_0001_0001_1110 = some (.addI 1) ∧
    decodeWord 0b1111_0001_0010_1001 = some (.ldF 1) ∧
    decodeWord 0b1010_1111_1111_1111 = some (.ldI 0xFFF) ∧
    decodeWord 0b1111_0001_0011_0011 = some (.ldB 1) ∧
    decodeWord 0b1111_0011_0101_0101 = some (.ldMemVx 3) ∧
    decodeWord 0b1111_1111_0110_0101 = some (.ldVxMem 15) := by decide
/-- §2.1: the ignored bits of R74. -/
theorem test_decode_ignored_bits :
    decodeWord 0x0AE0 = some .cls ∧ decodeWord 0x03EE = some .ret ∧ decodeWord 0x5127 = some (.seReg 1 2) ∧
    decodeWord 0x912F = some (.sneReg 1 2) ∧ decodeWord 0x8AB6 = some (.shr 10 11) := by decide
/-- §2.1: unknown words. -/
theorem test_decode_unknown :
    ([0x0000, 0x0123, 0x8008, 0x800F, 0xE19F, 0xF075].map fun w => decodeWord w) = List.replicate 6 none := by decide
/-- No word matches two rows of R76. -/
theorem test_opcode_rows_do_not_overlap :
    opcodeMap.Pairwise (fun r r' => r.pattern &&& (r.mask &&& r'.mask) ≠ r'.pattern &&& (r.mask &&& r'.mask)) := by decide
/-- Bytes too few for a word, and an unknown word, are rejected by name. -/
theorem test_decode_rejects_by_name :
    decodeBytes [0x12] = .error .truncated ∧ decodeBytes [0x80, 0x08, 0x55] = .error (.unknownOpcode 0x8008) := by decide

/-- Words of programs P1, P2, P3 and their text there. -/
theorem test_assembly :
    ([0x8014, 0xF265, 0x00EE, 0xD015, 0x1208].map fun w => (decodeWord w).map asm) =
      [some "ADD V0, V1", some "LD V2, [I]", some "RET", some "DRW V0, V1, 5", some "JP 0x208"] := by decide

/-! ## Parameters and reset -/

/-- R6: the stated parameter values meet the side conditions. -/
theorem test_parameters_admissible : Config.admissible 4096 0x200 0 16 5 16 = true := by decide
/-- R37, R191: glyph 2 stands at 10, as program P6 reads it. -/
theorem test_font_at_reset :
    [10, 11, 79, 80, 0x200].map State.reset.mem.peek = [0xF0, 0x10, 0x80, 0, 0] := by decide
theorem test_reset_memory_canonical : State.reset.mem.wf := by decide
/-- R192: byte `n` of the ROM stands at 0x200 + `n`. -/
theorem test_boot_places_rom :
    (boot [0x60, 0xEA]).map (fun s => (s.pc, s.mem.peek 0x200, s.mem.peek 0x201, s.mem.peek 0x202)) =
      some (0x200, 0x60, 0xEA, 0) := by decide

/-- R191 with another `FONT`: 80 bytes 0xAA, an empty ROM. -/
theorem test_boot_with_another_font :
    (bootFrom (List.replicate 80 0xAA) State.reset []).map (fun s => [0, 79, 80].map s.mem.peek) = some [0xAA, 0xAA, 0] := by
  decide

/-! ## Cycle (§2.2) -/

theorem test_fetch_at_odd_address :
    lands 0x1234 { State.reset with pc := 0x201 } (fun t => decide (t.pc = 0x234 ∧ t.curAddr = 0x201)) = true := by decide
theorem test_fetch_at_last_byte_faults :
    after (step { State.reset with pc := 0xFFF }) (fun t => decide (t.fault = some ⟨3, 0xFFF, none, 0x1000⟩)) = true := by
  decide
theorem test_fetch_beyond_memory_faults :
    after (step { State.reset with pc := 0x1000 }) (fun t => decide (t.fault = some ⟨3, 0x1000, none, 0x1000⟩)) = true := by
  decide
theorem test_unknown_opcode_faults :
    lands 0x8008 State.reset (fun t => decide (t.fault = some ⟨1, 0x200, some 0x8008, 0x8008⟩)) = true := by decide

/-! ## Control flow (§2.3) -/

theorem test_cls :
    lands 0x00E0 { (regs [(5, 0x77)]) with display := lit [(0, 0), (31, 63)] } (fun t =>
      onCells t.display [(0, 0), (31, 63)] == [false, false] && decide (t.reg 5 = 0x77 ∧ t.pc = 0x202)) = true := by decide
theorem test_cls_marks_redraw : after (exec .cls State.reset) (fun t => t.redraw) = true := by decide
theorem test_ret_underflow :
    lands 0x00EE State.reset (fun t => decide (t.fault = some ⟨2, 0x200, some 0x00EE, 0x202⟩)) = true := by decide
/-- The spec writes the top last. -/
theorem test_ret :
    lands 0x00EE { State.reset with stack := [0x20A, 0x206] } (fun t => decide (t.pc = 0x20A ∧ t.stack = [0x206])) = true := by
  decide
theorem test_jp : lands 0x1FFF State.reset (fun t => decide (t.pc = 0xFFF)) = true := by decide
theorem test_call :
    lands 0x2210 { State.reset with pc := 0x204 } (fun t => decide (t.pc = 0x210 ∧ t.stack = [0x206])) = true := by decide
/-- `STACK_LIMIT` = 2 (R29). -/
theorem test_call_at_a_stack_limit :
    callState (some 2) 0x200 { State.reset with pc := 0x202, stack := [0x202, 0x202] } = .error (.stackOverflow 0x202) := by
  decide
theorem test_se_immediate : lands 0x3700 State.reset (fun t => decide (t.pc = 0x204)) = true := by decide
theorem test_sne_immediate : lands 0x4700 State.reset (fun t => decide (t.pc = 0x202)) = true := by decide
theorem test_se_registers : lands 0x512F (regs [(1, 3), (2, 3)]) (fun t => decide (t.pc = 0x204)) = true := by decide
theorem test_sne_registers_skips : lands 0x9120 (regs [(1, 3), (2, 4)]) (fun t => decide (t.pc = 0x204)) = true := by decide
theorem test_sne_registers_stays : lands 0x9120 (regs [(1, 3), (2, 3)]) (fun t => decide (t.pc = 0x202)) = true := by decide
/-- §2.8 -/
theorem test_jp_v0 : lands 0xBFFF (regs [(0, 0xFF)]) (fun t => decide (t.pc = 0x10FE)) = true := by decide

/-! ## Registers (§2.3, §2.8) -/

theorem test_ld_immediate_into_vf : lands 0x6F00 (regs [(VF, 1)]) (fun t => decide (t.reg VF = 0)) = true := by decide
theorem test_add_immediate_writes_no_carry :
    lands 0x7101 (regs [(VF, 1), (1, 0xFF)]) (fun t => decide (t.reg 1 = 0 ∧ t.reg VF = 1)) = true := by decide
theorem test_ld_register :
    lands 0x8120 (regs [(1, 0x12), (2, 0x34)]) (fun t => decide (t.reg 1 = 0x34 ∧ t.reg 2 = 0x34)) = true := by decide
theorem test_or :
    lands 0x8121 (regs [(1, 0x0C), (2, 0x0A), (VF, 0x55)]) (fun t => decide (t.reg 1 = 0x0E ∧ t.reg VF = 0x55)) = true := by
  decide
theorem test_and :
    lands 0x8122 (regs [(1, 0x0C), (2, 0x0A), (VF, 0x55)]) (fun t => decide (t.reg 1 = 0x08 ∧ t.reg VF = 0x55)) = true := by
  decide
theorem test_xor :
    lands 0x8123 (regs [(1, 0x0C), (2, 0x0A), (VF, 0x55)]) (fun t => decide (t.reg 1 = 0x06 ∧ t.reg VF = 0x55)) = true := by
  decide
theorem test_rnd_masks_the_drawn_byte :
    lands 0xC1F0 { State.reset with rndIn := [0x5C, 0x77] } (fun t => decide (t.reg 1 = 0x50 ∧ t.rndIn = [0x77])) = true := by
  decide

/-! ## Arithmetic with flags (§1, §2.4) -/

theorem test_add_carries :
    lands 0x8124 (regs [(1, 0xC8), (2, 0x64)]) (fun t => decide (t.reg 1 = 0x2C ∧ t.reg VF = 1)) = true := by decide
theorem test_add_at_255_does_not_carry :
    lands 0x8124 (regs [(1, 0x7F), (2, 0x80)]) (fun t => decide (t.reg 1 = 0xFF ∧ t.reg VF = 0)) = true := by decide
theorem test_sub_borrows :
    lands 0x8125 (regs [(1, 0), (2, 1)]) (fun t => decide (t.reg 1 = 0xFF ∧ t.reg VF = 0)) = true := by decide
theorem test_sub_of_itself : lands 0x8115 (regs [(1, 0x42)]) (fun t => decide (t.reg 1 = 0 ∧ t.reg VF = 1)) = true := by decide
theorem test_subn_borrows :
    lands 0x8127 (regs [(1, 9), (2, 3)]) (fun t => decide (t.reg 1 = 0xFA ∧ t.reg VF = 0)) = true := by decide
theorem test_subn_of_equals :
    lands 0x8127 (regs [(1, 0x10), (2, 0x10)]) (fun t => decide (t.reg 1 = 0 ∧ t.reg VF = 1)) = true := by decide
theorem test_shr_ignores_vy :
    lands 0x8126 (regs [(1, 1), (2, 0xAA)]) (fun t => decide (t.reg 1 = 0 ∧ t.reg VF = 1 ∧ t.reg 2 = 0xAA)) = true := by decide
theorem test_shl :
    lands 0x830E (regs [(3, 0x40)]) (fun t => decide (t.reg 3 = 0x80 ∧ t.reg VF = 0)) = true := by decide
theorem test_shl_out : lands 0x810E (regs [(1, 0xFF)]) (fun t => decide (t.reg 1 = 0xFE ∧ t.reg VF = 1)) = true := by decide
/-- §2.4, `8F14`: VF as X, under both exact readings. -/
theorem test_alias_vf_as_x :
    ((regs [(VF, 0x80), (1, 0x90)]).alu .flagLast addRes addFlag VF 1).reg VF = 0x01 ∧
    ((regs [(VF, 0x80), (1, 0x90)]).alu .textOrder addRes addFlag VF 1).reg VF = 0x91 := by decide
/-- §2.4, `81F4`: VF as Y, under both exact readings. -/
theorem test_alias_vf_as_y :
    ((regs [(1, 0xFF), (VF, 2)]).alu .flagLast addRes addFlag 1 VF).reg 1 = 0x01 ∧
    ((regs [(1, 0xFF), (VF, 2)]).alu .textOrder addRes addFlag 1 VF).reg 1 = 0x00 ∧
    ((regs [(1, 0xFF), (VF, 2)]).alu .textOrder addRes addFlag 1 VF).reg VF = 1 := by decide
/-- §2.4, `8F06`: the shift of VF, under both exact readings. -/
theorem test_alias_shift :
    ((regs [(VF, 3)]).alu .flagLast shrRes shrFlag VF VF).reg VF = 1 ∧
    ((regs [(VF, 3)]).alu .textOrder shrRes shrFlag VF VF).reg VF = 0 := by decide
/-- §2.4, `81F4`: with any byte in V1, VF still holds the flag. -/
theorem test_alias_unspecified_keeps_the_flag :
    lands 0x81F4 (regs [(1, 0xFF), (VF, 2)]) (fun t => decide (t.reg VF = 1)) = true := by decide

/-! ## Draw (§2.5, program P3) -/

/-- P3, first DRW: glyph 8 across the corner, rows wrapped and columns clipped, sets eight cells and not their neighbours; VF = 0. -/
theorem test_drw_across_the_corner :
    lands 0xD015 { (regs [(0, 62), (1, 30)]) with i := 40 } (fun t =>
      onCells t.display [(30, 62), (30, 63), (31, 62), (31, 63), (0, 62), (0, 63), (1, 62), (1, 63), (2, 62), (2, 63), (30, 0), (3, 62)]
        == [true, true, true, false, true, true, true, false, true, true, false, false] && decide (t.reg VF = 0)) = true := by
  decide
/-- VF is both the column register and the flag: the origin is read before the reset. -/
theorem test_drw_origin_in_vf :
    lands 0xDF11 (regs [(VF, 5)]) (fun t =>
      onCells t.display [(0, 4), (0, 5), (0, 8)] == [false, true, true] && decide (t.reg VF = 0)) = true := by decide
/-- `ROW_WRAP_AT_H` = false: a row at exactly `H` is not wrapped (R132). -/
theorem test_row_at_height_without_wrap :
    (match targetRow false 32 with
      | .error e => decide (e = .drawBounds 32)
      | .ok _ => false) = true := by decide

/-! ## Input (§2.6) -/

theorem test_skp :
    lands 0xE29E { (regs [(2, 0x1A)]) with pc := 0x300, keyIn := [pressing [10]] } (fun t => decide (t.pc = 0x304)) = true := by
  decide
theorem test_skp_other_key :
    lands 0xE29E { (regs [(2, 0x1A)]) with pc := 0x300, keyIn := [pressing [1]] } (fun t => decide (t.pc = 0x302)) = true := by
  decide
theorem test_sknp :
    lands 0xE2A1 { (regs [(2, 3)]) with pc := 0x300, keyIn := [pressing []] } (fun t => decide (t.pc = 0x304)) = true := by decide
theorem test_wait_for_key_repeats :
    lands 0xF30A { State.reset with pc := 0x300, dt := 4, keyIn := [pressing []] } (fun t =>
      decide (t.pc = 0x300 ∧ t.reg 3 = 0 ∧ t.dt = 3)) = true := by decide
theorem test_wait_for_key_takes_the_lowest :
    lands 0xF30A { State.reset with pc := 0x300, keyIn := [pressing [14, 2]] } (fun t =>
      decide (t.reg 3 = 2 ∧ t.pc = 0x302)) = true := by decide

/-! ## Timers, index, font, BCD, block transfer (§2.7, §2.8) -/

theorem test_ld_vx_dt :
    lands 0xF507 { State.reset with dt := 3 } (fun t => decide (t.reg 5 = 3 ∧ t.dt = 2)) = true := by decide
theorem test_ld_dt_vx : lands 0xF015 (regs [(0, 0xFF)]) (fun t => decide (t.dt = 0xFE)) = true := by decide
theorem test_ld_st_one_triggers_the_tone :
    lands 0xF018 (regs [(0, 1)]) (fun t => decide (t.st = 0 ∧ t.tone = true)) = true := by decide
theorem test_ld_st_zero_triggers_nothing :
    lands 0xF018 State.reset (fun t => decide (t.st = 0 ∧ t.tone = false)) = true := by decide
theorem test_add_i_wraps :
    lands 0xF11E { (regs [(1, 2), (VF, 7)]) with i := 0xFFFF } (fun t => decide (t.i = 1 ∧ t.reg VF = 7)) = true := by decide
theorem test_add_i_past_memory :
    lands 0xF11E { (regs [(1, 1)]) with i := 0x0FFF } (fun t => decide (t.i = 0x1000)) = true := by decide
theorem test_ld_f_low_nibble : lands 0xF129 (regs [(1, 0x3B)]) (fun t => decide (t.i = 55)) = true := by decide
theorem test_ld_i : lands 0xAFFF State.reset (fun t => decide (t.i = 0xFFF)) = true := by decide
/-- L1-5. -/
theorem test_bcd :
    lands 0xF033 { (regs [(0, 234)]) with i := 0x300 } (fun t =>
      decide ([0x300, 0x301, 0x302].map t.mem.peek = [2, 3, 4] ∧ t.i = 0x300)) = true := by decide
theorem test_bcd_out_of_bounds :
    lands 0xF133 { (regs [(1, 9)]) with pc := 0x202, i := 0xFFE } (fun t =>
      decide (t.fault = some ⟨3, 0x202, some 0xF133, 0x1000⟩)) = true := by decide
/-- L1-6. -/
theorem test_dump :
    lands 0xF355 { (regs [(0, 0x11), (1, 0x22), (2, 0x33), (3, 0x44), (4, 0x55)]) with i := 0x400 } (fun t =>
      decide ([0x400, 0x401, 0x402, 0x403, 0x404].map t.mem.peek = [0x11, 0x22, 0x33, 0x44, 0] ∧ t.i = 0x400)) = true := by
  decide
theorem test_dump_out_of_bounds :
    lands 0xFF55 { State.reset with i := 0xFF1 } (fun t =>
      decide (t.fault = some ⟨3, 0x200, some 0xFF55, 0x1000⟩)) = true := by decide
theorem test_load :
    lands 0xF065 { (regs [(1, 9)]) with i := 0x300, mem := Memory.ofBytes 0x300 [0xAB, 0xCD] } (fun t =>
      decide (t.reg 0 = 0xAB ∧ t.reg 1 = 9 ∧ t.i = 0x300)) = true := by decide
/-- Program P6: the first two rows of glyph 2. -/
theorem test_load_from_font :
    lands 0xF165 { State.reset with i := 10 } (fun t => decide (t.reg 0 = 0xF0 ∧ t.reg 1 = 0x10)) = true := by decide

/-! ## Witnesses: the hypotheses of each obligation are met -/

theorem witness_KeyWidensByTopNibble :
    key 0x8AB6 = key 0x8006 ∧ decodeWord 0x8AB6 ≠ none ∧ key 0x8AB8 = key 0x8008 ∧ decodeWord 0x8AB8 = none := by decide
/-- Each row is selected by its own match value with every bit outside the mask set. -/
theorem witness_EveryRowOfTheOpcodeMapDecodes :
    ∀ row ∈ opcodeMap, (row.pattern ||| ~~~row.mask) &&& row.mask = row.pattern := by decide
theorem witness_DecodeOfEncodeIsTheInstruction :
    (Instr.drw 15 15 15).wellFormed = true ∧ Instr.cls.wellFormed = true ∧ (Instr.shl 15 15).wellFormed = true := by decide
theorem witness_EncodeOfDecodeKeepsEverySignificantBit :
    decodeWord 0x0FE0 = some .cls ∧ decodeWord 0x5FFF = some (.seReg 15 15) ∧ decodeWord 0x8FF6 = some (.shr 15 15) := by decide
theorem witness_BootPlacesTheRomOrRefusesIt :
    (List.replicate 3584 (0xFF : Byte)).length ≤ 3584 ∧ 3584 < (List.replicate 3585 (0xFF : Byte)).length ∧
    0x200 + (List.replicate 3584 (0xFF : Byte)).length = 4096 := by simp only [List.length_replicate]; decide
/-- A font of the table's size, two of another, and a ROM that fills memory. -/
theorem witness_BootLoadsTheFontItIsGiven :
    (List.replicate 80 (0xAA : Byte)).length = 80 ∧ (List.replicate 79 (0xAA : Byte)).length ≠ 80 ∧
    (List.replicate 81 (0xAA : Byte)).length ≠ 80 ∧ (List.replicate 3584 (0xFF : Byte)).length ≤ 3584 := by
  simp only [List.length_replicate]; decide
theorem witness_MemoryReadsBackWhatWasWritten :
    Memory.wf [(0, 0x12), (4095, 0x34)] ∧ (4095 : Nat) < 4096 ∧ (4096 : Nat) ≤ 4096 := by decide
theorem witness_FetchIsBigEndian :
    (4094 : Nat) + 1 < 4096 ∧ Memory.peek [(4094, 0x12), (4095, 0x34)] 4094 = 0x12 := by decide

/-- The word at the last address an instruction fits. -/
def lastWord : State := { State.reset with pc := 0xFFE, mem := [(0xFFE, 0x60), (0xFFF, 0x05)] }

theorem witness_StepRunsTheDecodedInstruction : lastWord.runs 0x6005 (.ldImm 0 5) := by
  refine ⟨rfl, ?_, ?_, ?_⟩ <;> decide
/-- The clause with and the clause without a fault in the handler. -/
theorem witness_StepRunsTheDecodedInstruction_clauses :
    (State.reset.withFetchWord 16 0x00EE).runs 0x00EE .ret ∧
    (∃ t, exec .ret ((State.reset.withFetchWord 16 0x00EE).entry 0x00EE) = .next t ∧ ¬ t.running) ∧
    ∃ t, exec (.ldImm 0 5) (lastWord.entry 0x6005) = .next t ∧ t.running := by
  refine ⟨⟨rfl, by decide, by decide, by decide⟩, ⟨_, rfl, ?_⟩, ⟨_, rfl, rfl⟩⟩
  simp [State.running, State.raise, State.enterFault]
theorem witness_FetchOutOfBoundsFaults :
    ∃ s s' : State, s.running ∧ s'.running ∧ s.pc.toNat = 4095 ∧ 4095 < s'.pc.toNat :=
  ⟨{ State.reset with pc := 0xFFF }, { State.reset with pc := 0x1000 }, by decide⟩
theorem witness_UnknownOpcodeFaults :
    State.reset.running ∧ State.reset.pc.toNat + 1 < 4096 ∧
      decodeWord (wordAt State.reset.mem State.reset.pc.toNat) = none := by decide
theorem witness_StoppedBlockTakesNoStep :
    ∃ s : State, s.fault = some ⟨2, 0x206, some 0x00EE, 0x208⟩ :=
  ⟨{ State.reset with fault := some ⟨2, 0x206, some 0x00EE, 0x208⟩ }, rfl⟩
theorem witness_RunningBlockAnswersANextState : State.reset.running ∧ lastWord.running := by decide

theorem step_faults {s : State} {r : FaultRecord} (h : after (step s) (fun t => decide (t.fault = some r)) = true) :
    ∃ t, step s = .next t ∧ t.fault = some r := by
  obtain ⟨t, ht, hp⟩ := exists_next h
  exact ⟨t, ht, of_decide_eq_true hp⟩

/-- The fetch clause and each of the codes 1 to 4. -/
theorem witness_FaultRecordNamesTheFaultingInstruction :
    (∃ s t, s.running ∧ step s = .next t ∧ t.fault = some ⟨3, 0xFFF, none, 4096⟩) ∧
    (∃ s t, s.running ∧ step s = .next t ∧ t.fault = some ⟨1, 0x200, some 0, 0⟩) ∧
    (∃ s t, s.running ∧ step s = .next t ∧ t.fault = some ⟨2, 0x200, some 0x00EE, 0x202⟩) ∧
    (∃ s t, s.running ∧ step s = .next t ∧ t.fault = some ⟨3, 0x200, some 0xF065, 4096⟩) ∧
    ∃ s t, s.running ∧ step s = .next t ∧ t.fault = some ⟨4, 0x200, some 0xD01F, 32⟩ := by
  refine ⟨⟨{ State.reset with pc := 0xFFF }, ?_⟩, ⟨State.reset, ?_⟩, ⟨State.reset.withFetchWord 16 0x00EE, ?_⟩,
    ⟨State.withFetchWord { State.reset with i := 4096 } 16 0xF065, ?_⟩, ⟨(regs [(1, 63)]).withFetchWord 16 0xD01F, ?_⟩⟩
  all_goals exact (step_faults (by decide)).imp fun _ h => ⟨rfl, h⟩

/-- A handler that answers a next state in which the block runs. -/
theorem exec_runs {i : Instr} {s : State} (h : after (exec i s) (fun t => decide t.running) = true) :
    ∃ t, exec i s = .next t ∧ t.running := by
  obtain ⟨t, ht, hp⟩ := exists_next h
  exact ⟨t, ht, of_decide_eq_true hp⟩

/-- With a key vector ready and with none; a step and a handler that answer a next state. -/
theorem witness_KeysAreLatchedOncePerCycle :
    (∃ t, step { lastWord with keyIn := [pressing [3]] } = .next t ∧ t.keys = pressing [3]) ∧
    (∃ t, step lastWord = .next t ∧ lastWord.keyIn = []) ∧
    ∃ t, exec (.skp 0) { State.reset with keys := pressing [0] } = .next t ∧ t.keys = pressing [0] := by
  refine ⟨?_, ?_, ⟨_, rfl, rfl⟩⟩
  · obtain ⟨t, ht, hp⟩ := exists_next (o := step { lastWord with keyIn := [pressing [3]] })
      (p := fun t => decide (t.keys = pressing [3])) (by decide)
    exact ⟨t, ht, of_decide_eq_true hp⟩
  · obtain ⟨t, ht, _⟩ := exists_next (o := step lastWord) (p := fun t => decide t.running) (by decide)
    exact ⟨t, ht, rfl⟩
/-- An instruction that is not FX15 and one that is. -/
theorem witness_DelayTimerTicksOncePerCycle :
    (lastWord.runs 0x6005 (.ldImm 0 5) ∧ (∀ x, Instr.ldImm 0 5 ≠ .ldDtVx x) ∧
      ∃ u, exec (.ldImm 0 5) (lastWord.entry 0x6005) = .next u ∧ u.running) ∧
    (State.reset.withFetchWord 16 0xF015).runs 0xF015 (.ldDtVx 0) ∧
      ∃ u, exec (.ldDtVx 0) ((State.reset.withFetchWord 16 0xF015).entry 0xF015) = .next u ∧ u.running :=
  ⟨⟨⟨rfl, by decide, by decide, by decide⟩, by simp, _, rfl, rfl⟩, ⟨rfl, by decide, by decide, by decide⟩, _, rfl, rfl⟩
/-- Both sides of the trigger: `ST` at 1 and at 0 before the tick. -/
theorem witness_SoundTimerTriggersTheToneAtZero :
    (State.withFetchWord { State.reset with st := 1 } 16 0x6005).runs 0x6005 (.ldImm 0 5) ∧
    (∃ u, exec (.ldImm 0 5) ((State.withFetchWord { State.reset with st := 1 } 16 0x6005).entry 0x6005) = .next u ∧ u.running ∧
      u.st = 1) ∧
    lastWord.runs 0x6005 (.ldImm 0 5) ∧
    ∃ u, exec (.ldImm 0 5) (lastWord.entry 0x6005) = .next u ∧ u.running ∧ u.st = 0 :=
  ⟨⟨rfl, by decide, by decide, by decide⟩, ⟨_, rfl, rfl, rfl⟩, ⟨rfl, by decide, by decide, by decide⟩, _, rfl, rfl, rfl⟩
theorem witness_ClsBlanksTheDisplay : (0x0FE0 : Word) &&& 0xF0FF = 0x00E0 := by decide
theorem witness_RetPopsOrUnderflows :
    (∃ s : State, s.stack = [0x20A, 0x206]) ∧ State.reset.stack = [] :=
  ⟨⟨{ State.reset with stack := [0x20A, 0x206] }, rfl⟩, rfl⟩
theorem witness_CallPushesTheReturnAddress :
    ∃ s : State, s.stack.length = 2 ∧ s.stack.length ≠ 3 :=
  ⟨{ State.reset with stack := [0x20A, 0x206] }, by decide⟩
theorem witness_AddWritesSumAndCarry :
    (1 : RegIx) ≠ VF ∧ (2 : RegIx) ≠ VF ∧
      ((regs [(1, 0x80), (2, 0x80)]).reg 1).toNat + ((regs [(1, 0x80), (2, 0x80)]).reg 2).toNat = 256 := by
  decide
theorem witness_SubtractionsWriteDifferenceAndNoBorrow :
    (1 : RegIx) ≠ VF ∧ (14 : RegIx) ≠ VF ∧ (regs [(1, 9), (14, 9)]).reg 1 = (regs [(1, 9), (14, 9)]).reg 14 := by decide
theorem witness_ShiftsWriteResultAndBitShiftedOut : (14 : RegIx) ≠ VF ∧ (regs [(14, 0x81)]).reg 14 = 0x81 := by decide
theorem witness_VfOperandLeavesAFreeValue :
    ((VF = VF ∨ (1 : RegIx) = VF)) ∧ (((1 : RegIx) = VF ∨ VF = VF) ∧ (1 : RegIx) ≠ VF) := by decide
/-- Fifteen rows, the last at row 63 and the sprite's last byte at the end of memory. -/
theorem witness_DrwTogglesTheCellsUnderTheSprite :
    ∃ s : State, (15 : Nat) < 16 ∧ ∀ r, r < 15 → s.indexAddr r < 4096 ∧ (s.reg 1).toNat + r < 64 :=
  ⟨{ (regs [(1, 49)]) with i := 0xFF1 }, by decide, by decide⟩
/-- No rows; an origin at `W`; an origin at `W - 1`, on the last row and cell of its clause. -/
theorem witness_DrwFlagIsTheLastPixelsCollision :
    (∃ t, exec (.drw 0 1 0) (regs [(0, 63)]) = .next t ∧ t.running) ∧
    (∃ t, exec (.drw 0 1 1) (regs [(0, 64)]) = .next t ∧ t.running ∧ 64 ≤ ((regs [(0, 64)]).reg 0).toNat) ∧
    ∃ t, exec (.drw 0 1 1) (regs [(0, 63), (1, 63)]) = .next t ∧ t.running ∧
      ((regs [(0, 63), (1, 63)]).reg 0).toNat < 64 ∧
      (31 : Fin 32).val = (((regs [(0, 63), (1, 63)]).reg 1).toNat + (1 - 1)) % 32 ∧
      (63 : Fin 64).val = ((regs [(0, 63), (1, 63)]).reg 0).toNat + min 7 (63 - ((regs [(0, 63), (1, 63)]).reg 0).toNat) := by
  refine ⟨exec_runs (by decide), ?_, ?_⟩
  · obtain ⟨t, h1, h2⟩ := exec_runs (i := .drw 0 1 1) (s := regs [(0, 64)]) (by decide); exact ⟨t, h1, h2, by decide⟩
  · obtain ⟨t, h1, h2⟩ := exec_runs (i := .drw 0 1 1) (s := regs [(0, 63), (1, 63)]) (by decide)
    exact ⟨t, h1, h2, by decide, by decide, by decide⟩
/-- A byte at the end of memory; a row at `2H`; and both at once, where only the first clause applies. -/
theorem witness_DrwFaultsAtTheFirstRowOutOfBounds :
    (∃ s : State, (∀ q, q < 2 → s.indexAddr q < 4096 ∧ (s.reg 1).toNat + q < 64) ∧ s.indexAddr 2 = 4096) ∧
    (∃ s : State, (∀ q, q < 1 → s.indexAddr q < 4096 ∧ (s.reg 1).toNat + q < 64) ∧ s.indexAddr 1 < 4096 ∧
      (s.reg 1).toNat + 1 = 64) ∧
    ∃ s : State, 4096 ≤ s.indexAddr 0 ∧ 64 ≤ (s.reg 1).toNat + 0 :=
  ⟨⟨{ State.reset with i := 0xFFE }, by decide, by decide⟩, ⟨regs [(1, 63)], by decide, by decide, by decide⟩,
    ⟨{ (regs [(1, 64)]) with i := 0x1000 }, by decide, by decide⟩⟩
theorem witness_DrawingTwiceRestoresTheDisplay :
    (0 : RegIx) ≠ VF ∧ (1 : RegIx) ≠ VF ∧ ∃ t, exec (.drw 0 1 5) (regs [(0, 62), (1, 30)]) = .next t ∧ t.running :=
  ⟨by decide, by decide, exec_runs (by decide)⟩
theorem witness_KeySkipsTestTheLowNibblesKey :
    ((10 : Fin 16)).val = ((regs [(2, 0x1A)]).reg 2).toNat % 16 ∧ ((15 : Fin 16)).val = ((regs [(2, 0xFF)]).reg 2).toNat % 16 := by
  decide
theorem witness_WaitForKeyTakesTheLowestOrRepeats :
    ((pressing [14, 2]).get 2 = true ∧ ∀ j, j < (2 : Fin 16) → (pressing [14, 2]).get j = false) ∧
    ((pressing [15]).get 15 = true ∧ ∀ j, j < (15 : Fin 16) → (pressing [15]).get j = false) ∧
    ∀ j, State.reset.keys.get j = false := by decide
theorem witness_BcdStoresTheDecimalDigits :
    (∃ s : State, s.mem.wf ∧ s.indexAddr 2 = 4095) ∧ (∃ s : State, s.mem.wf ∧ s.indexAddr 2 = 4096) ∧
    ∃ s : State, s.mem.wf ∧ s.indexAddr 0 = 65535 ∧ 4096 ≤ s.indexAddr 2 :=
  ⟨⟨{ State.reset with i := 0xFFD }, by decide⟩, ⟨{ State.reset with i := 0xFFE }, by decide⟩,
    ⟨{ State.reset with i := 0xFFFF }, by decide⟩⟩
theorem witness_DumpStoresTheRegisters :
    (∃ s : State, s.mem.wf ∧ s.indexAddr (15 : RegIx).val = 4095) ∧ ∃ s : State, s.mem.wf ∧ s.indexAddr (15 : RegIx).val = 4096 :=
  ⟨⟨{ State.reset with i := 0xFF0 }, by decide⟩, ⟨{ State.reset with i := 0xFF1 }, by decide⟩⟩
theorem witness_LoadReadsTheRegisters :
    (∃ s : State, s.indexAddr (15 : RegIx).val = 4095) ∧ ∃ s : State, s.indexAddr (15 : RegIx).val = 4096 :=
  ⟨⟨{ State.reset with i := 0xFF0 }, by decide⟩, ⟨{ State.reset with i := 0xFF1 }, by decide⟩⟩
theorem witness_DumpThenLoadRestoresTheRegisters :
    ∃ t u : State, (regs [(0, 0x11), (3, 0x44)]).mem.wf ∧ exec (.ldMemVx 3) (regs [(0, 0x11), (3, 0x44)]) = .next t ∧ t.running ∧
      u.mem = t.mem ∧ u.i = t.i ∧ u.dt ≠ t.dt := by
  obtain ⟨t, h1, h2⟩ := exec_runs (i := .ldMemVx 3) (s := regs [(0, 0x11), (3, 0x44)]) (by decide)
  exact ⟨t, t.setDt (t.dt + 1), by decide, h1, h2, rfl, rfl, by simp [State.setDt]⟩
theorem witness_StoredBytesAreFetched :
    ∃ t, State.reset.mem.wf ∧ exec (.ldMemVx 15) State.reset = .next t ∧ t.running ∧ (15 : RegIx).val = (14 : RegIx).val + 1 ∧
      (15 : RegIx) ≤ 15 := by
  obtain ⟨t, h1, h2⟩ := exec_runs (i := .ldMemVx 15) (s := State.reset) (by decide)
  exact ⟨t, by decide, h1, h2, by decide, by decide⟩
theorem witness_StackIsTouchedOnlyByCallAndRet :
    ∃ t, exec (.jp 0x234) State.reset = .next t ∧ t.running ∧ Instr.jp 0x234 ≠ .ret ∧ ∀ nnn, Instr.jp 0x234 ≠ .call nnn :=
  ⟨_, rfl, rfl, by simp, by simp⟩
theorem witness_MemoryIsWrittenOnlyByTheStores :
    ∃ t, exec (.drw 0 1 15) State.reset = .next t ∧ t.running ∧ (∀ x, Instr.drw 0 1 15 ≠ .ldB x) ∧
      ∀ x, Instr.drw 0 1 15 ≠ .ldMemVx x := by
  obtain ⟨t, h1, h2⟩ := exec_runs (i := .drw 0 1 15) (s := State.reset) (by decide)
  exact ⟨t, h1, h2, by simp, by simp⟩
theorem witness_DisplayIsWrittenOnlyByClsAndDrw :
    ∃ t, exec (.ldF 3) State.reset = .next t ∧ t.running ∧ Instr.ldF 3 ≠ .cls ∧ ∀ x y n, Instr.ldF 3 ≠ .drw x y n :=
  ⟨_, rfl, rfl, by simp, by simp⟩
theorem witness_IndexIsWrittenOnlyByItsThree :
    ∃ t, exec (.ldMemVx 15) State.reset = .next t ∧ t.running ∧ (∀ nnn, Instr.ldMemVx 15 ≠ .ldI nnn) ∧
      (∀ x, Instr.ldMemVx 15 ≠ .addI x) ∧ ∀ x, Instr.ldMemVx 15 ≠ .ldF x := by
  obtain ⟨t, h1, h2⟩ := exec_runs (i := .ldMemVx 15) (s := State.reset) (by decide)
  exact ⟨t, h1, h2, by simp, by simp, by simp⟩
theorem witness_TimersAreWrittenOnlyByTheirMoves :
    ∃ t, exec (.ldVxDt 3) State.reset = .next t ∧ t.running ∧ (∀ x, Instr.ldVxDt 3 ≠ .ldDtVx x) ∧
      ∀ x, Instr.ldVxDt 3 ≠ .ldStVx x :=
  ⟨_, rfl, rfl, by simp, by simp⟩
/-- One instruction of each of the three clauses that changes VF. -/
theorem witness_VfChangesOnlyAsFlagOrDestination :
    (∃ t, exec (.subReg 1 2) State.reset = .next t ∧ t.running ∧ t.reg VF ≠ State.reset.reg VF) ∧
    (∃ t, exec (.drw 0 1 0) (regs [(VF, 1)]) = .next t ∧ t.running ∧ t.reg VF ≠ (regs [(VF, 1)]).reg VF) ∧
    ∃ t, exec (.ldImm VF 9) State.reset = .next t ∧ t.running ∧ t.reg VF ≠ State.reset.reg VF :=
  ⟨⟨_, rfl, rfl, by decide⟩, ⟨_, rfl, rfl, by decide⟩, ⟨_, rfl, rfl, by decide⟩⟩
theorem witness_KeysAreSeenOnlyByTheKeyInstructions :
    ∃ t, (∀ x, Instr.drw 0 1 5 ≠ .skp x ∧ Instr.drw 0 1 5 ≠ .sknp x ∧ Instr.drw 0 1 5 ≠ .ldVxK x) ∧
      exec (.drw 0 1 5) State.reset = .next t := by
  obtain ⟨t, h1, _⟩ := exec_runs (i := .drw 0 1 5) (s := State.reset) (by decide)
  exact ⟨t, by simp, h1⟩
/-- A state with a stack entry and a tone, at the greatest `pc` the invariant allows. -/
def topOfRange : State := { State.reset with pc := 0x10FE, stack := [0x1000], tone := true }

theorem topOfRange_inv : topOfRange.Inv := 
  ⟨by decide, fun _ => rfl, fun _ => by simp [topOfRange, State.reset]⟩
theorem lastWord_inv : lastWord.Inv :=
  ⟨by decide, fun _ => rfl, fun _ => by simp [lastWord, State.reset]⟩

/-- A step that faults and one that does not. -/
theorem witness_EveryCycleKeepsTheInvariant :
    (topOfRange.Inv ∧ ∃ t, step topOfRange = .next t ∧ ¬ t.running) ∧
      lastWord.Inv ∧ ∃ t, step lastWord = .next t ∧ t.running := by
  refine ⟨⟨topOfRange_inv, ?_⟩, lastWord_inv, ?_⟩
  · obtain ⟨t, ht, hp⟩ := exists_next (o := step topOfRange) (p := fun t => decide (¬ t.running)) (by decide)
    exact ⟨t, ht, of_decide_eq_true hp⟩
  · obtain ⟨t, ht, hp⟩ := exists_next (o := step lastWord) (p := fun t => decide t.running) (by decide)
    exact ⟨t, ht, of_decide_eq_true hp⟩
/-- One cycle from a booted ROM, with a key vector given. -/
theorem witness_EveryRunFromABootMeetsTheInvariant :
    ∃ s t, boot [0x60, 0xEA, 0x00, 0xEE] = some s ∧ Reaches { s with keyIn := [pressing [3]], rndIn := [0x5C] } t ∧
      t.keys = pressing [3] := by
  cases hb : boot [0x60, 0xEA, 0x00, 0xEE] with
  | none => exact absurd hb (by decide)
  | some s =>
    have hp : after (step { s with keyIn := [pressing [3]], rndIn := [0x5C] }) (fun t => decide (t.keys = pressing [3])) = true := by
      cases hb; decide
    obtain ⟨t, ht, hk⟩ := exists_next hp
    exact ⟨s, t, rfl, .cycle .here ht, of_decide_eq_true hk⟩

end Sys2Proof.Tests
end

section
namespace Sys2Proof.Machine

/-! ## Fetch is big-endian (R51) -/

/-- The word of two bytes is never cut: the higher address adds less than 256 to a multiple of 256 below 2^16. -/
theorem toNat_wordAt (m : Memory) (a : Nat) :
    (wordAt m a).toNat = 256 * (m.peek a).toNat + (m.peek (a + 1)).toNat := by
  have hhi := (m.peek a).isLt
  have hlo := (m.peek (a + 1)).isLt
  rw [wordAt, BitVec.toNat_ofNat, Nat.mod_eq_of_lt (by omega)]

/-- Settles O11: an in-bounds fetch answers `wordAt`, whose value is the big-endian sum. -/
theorem fetchIsBigEndian : Obligations.FetchIsBigEndian := by
  intro m a ha
  exact ⟨wordAt m a, Memory.fetchWord_of_lt ha, toNat_wordAt m a⟩

end Sys2Proof.Machine
end

section
namespace Sys2Proof

/-! ## The fields of a word as numbers (R71) -/

/-- A slice of a word is a quotient and a remainder of its number. -/
theorem toNat_slice (w : Word) (lo len : Nat) : (w.extractLsb' lo len).toNat = w.toNat / 2 ^ lo % 2 ^ len := by
  rw [BitVec.extractLsb'_toNat, Nat.shiftRight_eq_div_pow]

theorem toNat_low_slice (w : Word) (len : Nat) : (w.extractLsb' 0 len).toNat = w.toNat % 2 ^ len := by
  rw [toNat_slice, pow_zero, Nat.div_one]

/-- The top nibble needs no remainder: nothing stands above it. -/
theorem toNat_fieldT (w : Word) : (fieldT w).toNat = w.toNat / 4096 := by
  have hw := w.isLt
  exact (toNat_slice w 12 4).trans (Nat.mod_eq_of_lt (by omega))

theorem val_fieldX (w : Word) : (fieldX w).val = w.toNat / 256 % 16 := toNat_slice w 8 4

theorem val_fieldY (w : Word) : (fieldY w).val = w.toNat / 16 % 16 := toNat_slice w 4 4

theorem toNat_fieldKK (w : Word) : (fieldKK w).toNat = w.toNat % 256 := toNat_low_slice w 8

theorem toNat_fieldNNN (w : Word) : (fieldNNN w).toNat = w.toNat % 4096 := toNat_low_slice w 12

theorem fieldN_eq_mod (w : Word) : fieldN w = w.toNat % 16 := toNat_low_slice w 4

/-- Settles O1: each field is the slice of the word that its numeric lemma states. -/
theorem fieldsAreSlicesOfTheWord : Obligations.FieldsAreSlicesOfTheWord := fun w =>
  ⟨toNat_fieldT w, val_fieldX w, val_fieldY w, toNat_fieldKK w, toNat_fieldNNN w, fieldN_eq_mod w⟩

/-! ## The key (R73) -/

/-- The mask of a top nibble, by the nibble's number. -/
theorem keyMask_eq_ite_toNat (t : BitVec 4) :
    keyMask t =
      if t.toNat = 0 ∨ t.toNat = 14 ∨ t.toNat = 15 then 0xF0FF else if t.toNat = 8 then 0xF00F else 0xF000 := by
  simp only [keyMask, ← BitVec.toNat_inj]
  rfl

/-- The key of a word, by the number of its top nibble. -/
theorem key_eq_ite_toNat (w : Word) :
    key w =
      if w.toNat / 4096 = 0 ∨ w.toNat / 4096 = 14 ∨ w.toNat / 4096 = 15 then w &&& 0xF0FF
      else if w.toNat / 4096 = 8 then w &&& 0xF00F else w &&& 0xF000 := by
  rw [key, keyMask_eq_ite_toNat, toNat_fieldT]
  split
  · rfl
  · split <;> rfl

/-- The decoder selects by the key alone, so words with one key are both instructions or both not. -/
theorem decodeWord_none_congr {w w' : Word} (h : key w = key w') : decodeWord w = none ↔ decodeWord w' = none := by
  rw [decodeWord_none, decodeWord_none, h]

/-- Settles O2: the key's case equation, and that a word is unknown by its key alone. -/
theorem keyWidensByTopNibble : Obligations.KeyWidensByTopNibble :=
  ⟨key_eq_ite_toNat, fun _ _ => decodeWord_none_congr⟩

end Sys2Proof
end

section
namespace Sys2Proof

/-! ## Words that a row's mask selects (R73, R76) -/

/-- A mask that keeps the top nibble keeps the family of the word. -/
theorem fieldT_and_of_top {m : Word} (w : Word) (hm : fieldT m = 0xF) : fieldT (w &&& m) = fieldT w := by
  have hand : fieldT (w &&& m) = fieldT w &&& fieldT m := BitVec.extractLsb'_and
  rw [hand, hm]
  exact BitVec.and_allOnes

/-- When a row's mask is the key mask of its match value's family, the words it selects have that value as their key. -/
theorem key_of_and_mask {w m p : Word} (hw : w &&& m = p) (hm : fieldT m = 0xF) (hp : keyMask (fieldT p) = m) :
    key w = p := by
  have hT : fieldT w = fieldT p := by rw [← hw, fieldT_and_of_top w hm]
  rw [key, hT, hp, hw]

end Sys2Proof
end

section
namespace Sys2Proof.Machine

/-- A row found by its match value decodes every word its mask selects. -/
theorem selects_of_row {p m : Word} {r : OpRow} (hm : fieldT m = 0xF) (hp : keyMask (fieldT p) = m)
    (hr : opcodeMap.find? (fun r => p == r.pattern) = some r) : Selects p m r.build := fun _ hw =>
  decodeWord_of_key (key_of_and_mask hw hm hp) hr

/-! ## CLS (R101) -/

/-- CLS draws the blank display; it has no fault. -/
theorem exec_cls (s : State) : exec .cls s = .next (s.draw blankDisplay) := rfl

/-- A drawn display and its redraw mark are all that `State.draw` writes. -/
theorem State.draw_frame (s : State) (d : Display) :
    s.draw d = { s with display := (s.draw d).display, redraw := (s.draw d).redraw } := rfl

/-- Settles O21: the first row of the opcode map, and the frame of drawing the blank display. -/
theorem clsBlanksTheDisplay : Obligations.ClsBlanksTheDisplay := by
  have hrow : Selects 0x00E0 0xF0FF (fun _ => .cls) :=
    selects_of_row (r := ⟨0x00E0, 0xF0FF, fun _ => .cls⟩) (by decide) (by decide) rfl
  refine ⟨hrow, fun s => ⟨s.draw blankDisplay, exec_cls s, ?blank, s.draw_redraw _, s.draw_frame _, ?memory⟩⟩
  case blank => exact fun y x => cell_blankDisplay y x
  case memory => exact fun a => by rw [State.draw_mem]

end Sys2Proof.Machine
end

section
namespace Sys2Proof

/-! ## Decode of encode (R70, R71, R76, R92) -/

/-- The word of every instruction has the key of its row. -/
theorem key_encode (i : Instr) : key (encode i) = Laws.EncodeKey.rowPattern i := by
  cases i with
  | cls => exact Laws.EncodeKey.cls
  | ret => exact Laws.EncodeKey.ret
  | jp nnn => exact Laws.EncodeKey.jp nnn
  | call nnn => exact Laws.EncodeKey.call nnn
  | seImm x kk => exact Laws.EncodeKey.seImm x kk
  | sneImm x kk => exact Laws.EncodeKey.sneImm x kk
  | seReg x y => exact Laws.EncodeKey.seReg x y
  | ldImm x kk => exact Laws.EncodeKey.ldImm x kk
  | addImm x kk => exact Laws.EncodeKey.addImm x kk
  | ldReg x y => exact Laws.EncodeKey.ldReg x y
  | orReg x y => exact Laws.EncodeKey.orReg x y
  | andReg x y => exact Laws.EncodeKey.andReg x y
  | xorReg x y => exact Laws.EncodeKey.xorReg x y
  | addReg x y => exact Laws.EncodeKey.addReg x y
  | subReg x y => exact Laws.EncodeKey.subReg x y
  | shr x y => exact Laws.EncodeKey.shr x y
  | subnReg x y => exact Laws.EncodeKey.subnReg x y
  | shl x y => exact Laws.EncodeKey.shl x y
  | sneReg x y => exact Laws.EncodeKey.sneReg x y
  | ldI nnn => exact Laws.EncodeKey.ldI nnn
  | jpV0 nnn => exact Laws.EncodeKey.jpV0 nnn
  | rnd x kk => exact Laws.EncodeKey.rnd x kk
  | drw x y n => exact Laws.EncodeKey.drw x y n
  | skp x => exact Laws.EncodeKey.skp x
  | sknp x => exact Laws.EncodeKey.sknp x
  | ldVxDt x => exact Laws.EncodeKey.ldVxDt x
  | ldVxK x => exact Laws.EncodeKey.ldVxK x
  | ldDtVx x => exact Laws.EncodeKey.ldDtVx x
  | ldStVx x => exact Laws.EncodeKey.ldStVx x
  | addI x => exact Laws.EncodeKey.addI x
  | ldF x => exact Laws.EncodeKey.ldF x
  | ldB x => exact Laws.EncodeKey.ldB x
  | ldMemVx x => exact Laws.EncodeKey.ldMemVx x
  | ldVxMem x => exact Laws.EncodeKey.ldVxMem x

/-- The row of an instruction's key, applied to the instruction's word, reads its operands back. Only DRW's row count, a number,
can be too large for its field. -/
theorem decodeWord_encode {i : Instr} (hi : i.wellFormed = true) : decodeWord (encode i) = some i := by
  have hkey := key_encode i
  cases i
  case drw x y n =>
    have hn : n < 16 := of_decide_eq_true hi
    exact (decodeWord_of_key hkey rfl).trans (by simp [encode, Nat.mod_eq_of_lt hn])
  all_goals exact (decodeWord_of_key hkey rfl).trans (by simp [encode])

/-- The two bytes of a word, joined, are the word (R51). -/
theorem wordOfBytes_slices (w : Word) : wordOfBytes (w.extractLsb' 8 8) (w.extractLsb' 0 8) = w := by
  have hw := w.isLt
  apply BitVec.eq_of_toNat_eq
  rw [Machine.wordOfBytes_eq, toNat_slice, toNat_low_slice, BitVec.toNat_ofNat]
  omega

/-- Bytes in front of others decode as the word they hold. -/
theorem decodeBytes_bytesOfWord {w : Word} {i : Instr} (h : decodeWord w = some i) (rest : List Byte) :
    decodeBytes (bytesOfWord w ++ rest) = .ok (i, rest) := by
  simp only [bytesOfWord, List.cons_append, List.nil_append, decodeBytes, wordOfBytes_slices, h]

/-- Settles O6: the word's key selects the instruction's own row, and each field of the word reads back the operand put there. -/
theorem decodeOfEncodeIsTheInstruction : Obligations.DecodeOfEncodeIsTheInstruction := fun _ hi =>
  ⟨decodeWord_encode hi, decodeBytes_bytesOfWord (decodeWord_encode hi)⟩

/-! ## Every row of the opcode map (R76) -/

/-- Each row's mask is the key mask of its match value's family. -/
theorem opcodeMap_masks : ∀ r ∈ opcodeMap, fieldT r.mask = 0xF ∧ keyMask (fieldT r.pattern) = r.mask := by decide

/-- No two rows share a match value. -/
theorem opcodeMap_patterns_differ : opcodeMap.Pairwise fun r r' => r.pattern ≠ r'.pattern := by decide

/-- The row found by a match value is the row that has it. -/
theorem find_pattern {r : OpRow} {rows : List OpRow} (hrows : rows.Pairwise fun r r' => r.pattern ≠ r'.pattern)
    (hr : r ∈ rows) : rows.find? (fun r' => r.pattern == r'.pattern) = some r := by
  induction rows with
  | nil => cases hr
  | cons r' rows ih =>
    obtain ⟨hne, hrows⟩ := List.pairwise_cons.mp hrows
    rcases List.mem_cons.mp hr with rfl | hr
    · simp
    · rw [List.find?_cons_of_neg (by simpa using (hne r hr).symm), ih hrows hr]

/-- Every row decodes every word its mask selects. -/
theorem selects_of_mem {r : OpRow} (hr : r ∈ opcodeMap) : Machine.Selects r.pattern r.mask r.build := by
  obtain ⟨htop, hmask⟩ := opcodeMap_masks r hr
  exact Machine.selects_of_row htop hmask (find_pattern opcodeMap_patterns_differ hr)

/-- Settles O4: the statement is the opcode map written out, row by row. -/
theorem everyRowOfTheOpcodeMapDecodes : Obligations.EveryRowOfTheOpcodeMapDecodes := by
  have hrows : ∀ r ∈ opcodeMap, Machine.Selects r.pattern r.mask r.build := fun _ => selects_of_mem
  unfold Obligations.EveryRowOfTheOpcodeMapDecodes
  simpa only [opcodeMap, List.cons_append, List.nil_append, List.forall_mem_cons, List.not_mem_nil, false_imp_iff,
    implies_true, and_true] using hrows

end Sys2Proof
end

section
namespace Sys2Proof

/-! ## Numbers of words and keys (R71, R73) -/

theorem toNat_wordNNN (t : BitVec 4) (nnn : BitVec 12) : (wordNNN t nnn).toNat = 4096 * t.toNat + nnn.toNat := by
  rw [wordNNN, BitVec.toNat_append, ← Nat.shiftLeft_add_eq_or_of_lt nnn.isLt, Nat.shiftLeft_eq, Nat.mul_comm]

theorem toNat_wordXKK (t : BitVec 4) (x : RegIx) (kk : Byte) :
    (wordXKK t x kk).toNat = 4096 * t.toNat + 256 * x.val + kk.toNat := by
  have hx : (BitVec.ofFin (w := 4) x).toNat = x.val := rfl
  rw [wordXKK, toNat_wordNNN, BitVec.toNat_append, ← Nat.shiftLeft_add_eq_or_of_lt kk.isLt, Nat.shiftLeft_eq, hx]
  omega

theorem toNat_wordXYN (t : BitVec 4) (x y : RegIx) (n : BitVec 4) :
    (wordXYN t x y n).toNat = 4096 * t.toNat + 256 * x.val + 16 * y.val + n.toNat := by
  have hy : (BitVec.ofFin (w := 4) y).toNat = y.val := rfl
  rw [wordXYN, toNat_wordXKK, BitVec.toNat_append, ← Nat.shiftLeft_add_eq_or_of_lt n.isLt, Nat.shiftLeft_eq, hy]
  omega

/-- Words with equal fields `T`, `X` and `KK` are equal. -/
theorem word_eq_wordXKK (w : Word) : w = wordXKK (fieldT w) (fieldX w) (fieldKK w) := by
  apply BitVec.eq_of_toNat_eq
  rw [toNat_wordXKK, toNat_fieldT, val_fieldX, toNat_fieldKK]
  omega

theorem word_eq_wordNNN (w : Word) : w = wordNNN (fieldT w) (fieldNNN w) := by
  apply BitVec.eq_of_toNat_eq
  rw [toNat_wordNNN, toNat_fieldT, toNat_fieldNNN]
  omega

/-- A family selected by the low byte: the key keeps the top nibble and the low byte. -/
theorem toNat_key_low_byte {w : Word} (h : keyMask (fieldT w) = 0xF0FF) :
    (key w).toNat = 4096 * (w.toNat / 4096) + w.toNat % 256 := by
  conv_lhs => rw [word_eq_wordXKK w]
  rw [key_low_byte _ _ _ h, toNat_wordXKK, toNat_fieldT, toNat_fieldKK]
  rfl

/-- A family selected by the low nibble: the key keeps the top nibble and the low nibble. -/
theorem toNat_key_low_nibble {w : Word} (h : keyMask (fieldT w) = 0xF00F) :
    (key w).toNat = 4096 * (w.toNat / 4096) + w.toNat % 16 := by
  conv_lhs => rw [word_eq_wordXYN w]
  rw [key_low_nibble _ _ _ _ h, toNat_wordXYN, toNat_fieldT, toNat_low_slice]
  rfl

/-- A family that is one row: the key keeps the top nibble alone. -/
theorem toNat_key_top {w : Word} (h : keyMask (fieldT w) = 0xF000) : (key w).toNat = 4096 * (w.toNat / 4096) := by
  conv_lhs => rw [word_eq_wordNNN w]
  rw [key_top _ _ h, toNat_wordNNN, toNat_fieldT]
  rfl

/-! ## Unknown words (R80) -/

/-- The match values of the rows of a family (a top nibble), without the nibble. -/
def rowTails (T : Nat) : List Nat :=
  ((opcodeMap.map (·.pattern.toNat)).filter (· / 4096 = T)).map (· % 4096)

/-- A word whose key is its top nibble and a tail is unknown exactly when no row of its family has the tail. -/
theorem decodeWord_none_iff_tail {w : Word} {b : Nat} (hkey : (key w).toNat = 4096 * (w.toNat / 4096) + b) (hb : b < 4096) :
    decodeWord w = none ↔ b ∉ rowTails (w.toNat / 4096) := by
  have hdiv : (key w).toNat / 4096 = w.toNat / 4096 := by omega
  have hmod : (key w).toNat % 4096 = b := by omega
  simp only [decodeWord_none, rowTails, List.mem_map, List.mem_filter, decide_eq_true_eq]
  constructor
  · rintro h ⟨_, ⟨⟨r, hr, rfl⟩, hT⟩, htail⟩
    exact h r hr (BitVec.eq_of_toNat_eq (by omega))
  · intro h r hr heq
    exact h ⟨_, ⟨⟨r, hr, rfl⟩, by rw [← heq, hdiv]⟩, by rw [← heq, hmod]⟩

theorem rowTails_zero : rowTails 0 = [0xE0, 0xEE] := by decide
theorem rowTails_eight : rowTails 8 = [0, 1, 2, 3, 4, 5, 6, 7, 14] := by decide
theorem rowTails_fourteen : rowTails 14 = [0x9E, 0xA1] := by decide
theorem rowTails_fifteen : rowTails 15 = [0x07, 0x0A, 0x15, 0x18, 0x1E, 0x29, 0x33, 0x55, 0x65] := by decide

/-- Every other family is one row, whose match value is the top nibble alone. -/
theorem rowTails_of_top : ∀ T < 16, ¬(T = 0 ∨ T = 14 ∨ T = 15) → T ≠ 8 → rowTails T = [0] := by decide

/-- Settles O5: the key's mask says which low bits are the tail, and the family's rows which tails are known. -/
theorem unknownWordsAreTheListedOnes : Obligations.UnknownWordsAreTheListedOnes := by
  intro w
  have hw := w.isLt
  have hmask := keyMask_eq_ite_toNat (fieldT w)
  rw [toNat_fieldT] at hmask
  by_cases hbyte : w.toNat / 4096 = 0 ∨ w.toNat / 4096 = 14 ∨ w.toNat / 4096 = 15
  · rw [if_pos hbyte] at hmask
    rw [decodeWord_none_iff_tail (toNat_key_low_byte hmask) (by omega)]
    rcases hbyte with hT | hT | hT
    · simp [hT, rowTails_zero]
    · simp [hT, rowTails_fourteen]
    · simp [hT, rowTails_fifteen]
  · rw [if_neg hbyte] at hmask
    by_cases hT : w.toNat / 4096 = 8
    · rw [if_pos hT] at hmask
      rw [decodeWord_none_iff_tail (toNat_key_low_nibble hmask) (by omega), hT, rowTails_eight]
      simp only [List.mem_cons, List.not_mem_nil, or_false, not_or, OfNat.ofNat_ne_zero, false_and, true_and,
        Nat.reduceEqDiff, or_self, false_or]
      omega
    · rw [if_neg hT] at hmask
      rw [decodeWord_none_iff_tail (b := 0) (toNat_key_top hmask) (by omega), rowTails_of_top _ (by omega) hbyte hT]
      simp only [List.mem_singleton, not_true_eq_false, false_iff]
      omega

/-! ## Encode of decode (R74) -/

/-- A word's key has the word's top nibble. -/
theorem fieldT_key (w : Word) : fieldT (key w) = fieldT w := by
  have hmask : fieldT (keyMask (fieldT w)) = 0xF := by
    generalize fieldT w = t
    revert t; decide
  exact fieldT_and_of_top w hmask

/-- In a family selected by the low byte, a word's key has the word's low byte. -/
theorem fieldKK_key {w : Word} (h : keyMask (fieldT w) = 0xF0FF) : fieldKK (key w) = fieldKK w := by
  conv_lhs => rw [word_eq_wordXKK w]
  rw [key_low_byte _ _ _ h, fieldKK_wordXKK]

/-- In a family selected by the low nibble, a word's key has the word's low nibble. -/
theorem low_nibble_key {w : Word} (h : keyMask (fieldT w) = 0xF00F) :
    (key w).extractLsb' 0 4 = w.extractLsb' 0 4 := by
  have hN : fieldN (key w) = fieldN w := by
    conv_lhs => rw [word_eq_wordXYN w]
    rw [key_low_nibble _ _ _ _ h, fieldN_wordXYN, fieldN]
  exact BitVec.eq_of_toNat_eq hN

/-- The bits of a word that the decoder reads, by top nibble (R74): all but X in the family 0 and N in the families 5 and 9. -/
def significantMask (t : BitVec 4) : Word := if t = 0 then 0xF0FF else if t = 5 ∨ t = 9 then 0xFFF0 else 0xFFFF

/-- The mask of a word, by the number of its top nibble. -/
theorem significantMask_fieldT (w : Word) :
    significantMask (fieldT w) = if w.toNat / 4096 = 0 then 0xF0FF
      else if w.toNat / 4096 = 5 ∨ w.toNat / 4096 = 9 then 0xFFF0 else 0xFFFF := by
  rw [← toNat_fieldT, significantMask]
  simp only [← BitVec.toNat_inj]
  rfl

section
variable {w p : Word} {t : BitVec 4} (ht : fieldT p = t)
include ht

theorem wordNNN_of_key (hkey : key w = p) : wordNNN t (fieldNNN w) = w := by
  rw [← ht, ← hkey, fieldT_key, ← word_eq_wordNNN]

theorem wordXKK_of_key (hkey : key w = p) : wordXKK t (fieldX w) (fieldKK w) = w := by
  rw [← ht, ← hkey, fieldT_key, ← word_eq_wordXKK]

theorem wordXYN_of_key (hkey : key w = p) : wordXYN t (fieldX w) (fieldY w) (w.extractLsb' 0 4) = w := by
  rw [← ht, ← hkey, fieldT_key, ← word_eq_wordXYN]

/-- In a family selected by the low byte, the row knows the low byte. -/
theorem wordXKK_of_key_low_byte {kk : Byte} (hm : keyMask t = 0xF0FF) (hkk : fieldKK p = kk) (hkey : key w = p) :
    wordXKK t (fieldX w) kk = w := by
  have htw : fieldT w = t := by rw [← fieldT_key, hkey, ht]
  rw [← hkk, ← hkey, fieldKK_key (by rw [htw, hm]), ← htw, ← word_eq_wordXKK]

/-- In a family selected by the low nibble, the row knows the low nibble. -/
theorem wordXYN_of_key_low_nibble {n : BitVec 4} (hm : keyMask t = 0xF00F) (hn : p.extractLsb' 0 4 = n)
    (hkey : key w = p) : wordXYN t (fieldX w) (fieldY w) n = w := by
  have htw : fieldT w = t := by rw [← fieldT_key, hkey, ht]
  rw [← hn, ← hkey, low_nibble_key (by rw [htw, hm]), ← htw, ← word_eq_wordXYN]

/-- A word with 0 in its field N is the word read, its low nibble cleared. -/
theorem wordXYN_zero_of_key (hkey : key w = p) : wordXYN t (fieldX w) (fieldY w) 0 = w &&& 0xFFF0 := by
  have hmask (i : Nat) (hi : i < 16) : (0xFFF0 : Word).getLsbD i = decide (4 ≤ i) := by revert i; decide
  apply BitVec.eq_of_getLsbD_eq
  intro i hi
  rw [BitVec.getLsbD_and, hmask i hi]
  conv_rhs => rw [← wordXYN_of_key ht hkey]
  rw [getLsbD_wordXYN, getLsbD_wordXYN]
  by_cases h4 : i < 4
  · simp [h4, show i < 12 by omega, show i < 8 by omega]
  · simp [h4, Nat.le_of_not_lt h4]

end

/-- A row's instruction, encoded, is the word it was read from, with 0 in the bits that are not significant. -/
def KeepsSignificantBits (r : OpRow) : Prop :=
  ∀ w : Word, key w = r.pattern → encode (r.build w) = w &&& significantMask (fieldT w)

/-- The mask of a word that a row decodes is known from the row. -/
theorem keepsSignificantBits_of_mask {r : OpRow} {m : Word} (hm : significantMask (fieldT r.pattern) = m)
    (h : ∀ w, key w = r.pattern → encode (r.build w) = w &&& m) : KeepsSignificantBits r := fun w hkey => by
  rw [h w hkey, ← hm, ← hkey, fieldT_key]

/-- Where every bit is significant the word comes back. -/
theorem keepsSignificantBits_of_eq {r : OpRow} (hm : significantMask (fieldT r.pattern) = 0xFFFF)
    (h : ∀ w, key w = r.pattern → encode (r.build w) = w) : KeepsSignificantBits r :=
  keepsSignificantBits_of_mask hm fun w hkey => (h w hkey).trans (BitVec.and_allOnes (x := w)).symm

/-- In the family 0 the significant bits are the key. -/
theorem keepsSignificantBits_of_family_zero {r : OpRow} (hT : fieldT r.pattern = 0)
    (h : ∀ w, encode (r.build w) = r.pattern) : KeepsSignificantBits r := fun w hkey => by
  have hTw : fieldT w = 0 := by rw [← fieldT_key, hkey, hT]
  rw [h, ← hkey, key, hTw]
  rfl

/-- Every row keeps them: row by row in the map's order, by the form of its word. -/
theorem keepsSignificantBits_of_mem : ∀ r ∈ opcodeMap, KeepsSignificantBits r := by
  simp only [opcodeMap, List.cons_append, List.nil_append, List.forall_mem_cons, List.not_mem_nil, false_imp_iff,
    implies_true, and_true]
  exact ⟨keepsSignificantBits_of_family_zero rfl fun _ => rfl,
    keepsSignificantBits_of_family_zero rfl fun _ => rfl,
    keepsSignificantBits_of_eq rfl fun _ => wordNNN_of_key rfl,
    keepsSignificantBits_of_eq rfl fun _ => wordNNN_of_key rfl,
    keepsSignificantBits_of_eq rfl fun _ => wordXKK_of_key rfl,
    keepsSignificantBits_of_eq rfl fun _ => wordXKK_of_key rfl,
    keepsSignificantBits_of_mask rfl fun _ => wordXYN_zero_of_key rfl,
    keepsSignificantBits_of_eq rfl fun _ => wordXKK_of_key rfl,
    keepsSignificantBits_of_eq rfl fun _ => wordXKK_of_key rfl,
    keepsSignificantBits_of_eq rfl fun _ => wordXYN_of_key_low_nibble rfl rfl rfl,
    keepsSignificantBits_of_eq rfl fun _ => wordXYN_of_key_low_nibble rfl rfl rfl,
    keepsSignificantBits_of_eq rfl fun _ => wordXYN_of_key_low_nibble rfl rfl rfl,
    keepsSignificantBits_of_eq rfl fun _ => wordXYN_of_key_low_nibble rfl rfl rfl,
    keepsSignificantBits_of_eq rfl fun _ => wordXYN_of_key_low_nibble rfl rfl rfl,
    keepsSignificantBits_of_eq rfl fun _ => wordXYN_of_key_low_nibble rfl rfl rfl,
    keepsSignificantBits_of_eq rfl fun _ => wordXYN_of_key_low_nibble rfl rfl rfl,
    keepsSignificantBits_of_eq rfl fun _ => wordXYN_of_key_low_nibble rfl rfl rfl,
    keepsSignificantBits_of_eq rfl fun _ => wordXYN_of_key_low_nibble rfl rfl rfl,
    keepsSignificantBits_of_mask rfl fun _ => wordXYN_zero_of_key rfl,
    keepsSignificantBits_of_eq rfl fun _ => wordNNN_of_key rfl,
    keepsSignificantBits_of_eq rfl fun _ => wordNNN_of_key rfl,
    keepsSignificantBits_of_eq rfl fun _ => wordXKK_of_key rfl,
    keepsSignificantBits_of_eq rfl fun w hkey => by
      show wordXYN 0xD (fieldX w) (fieldY w) (BitVec.ofNat 4 (fieldN w)) = w
      rw [fieldN, BitVec.ofNat_toNat, BitVec.setWidth_eq]
      exact wordXYN_of_key rfl hkey,
    keepsSignificantBits_of_eq rfl fun _ => wordXKK_of_key_low_byte rfl rfl rfl,
    keepsSignificantBits_of_eq rfl fun _ => wordXKK_of_key_low_byte rfl rfl rfl,
    keepsSignificantBits_of_eq rfl fun _ => wordXKK_of_key_low_byte rfl rfl rfl,
    keepsSignificantBits_of_eq rfl fun _ => wordXKK_of_key_low_byte rfl rfl rfl,
    keepsSignificantBits_of_eq rfl fun _ => wordXKK_of_key_low_byte rfl rfl rfl,
    keepsSignificantBits_of_eq rfl fun _ => wordXKK_of_key_low_byte rfl rfl rfl,
    keepsSignificantBits_of_eq rfl fun _ => wordXKK_of_key_low_byte rfl rfl rfl,
    keepsSignificantBits_of_eq rfl fun _ => wordXKK_of_key_low_byte rfl rfl rfl,
    keepsSignificantBits_of_eq rfl fun _ => wordXKK_of_key_low_byte rfl rfl rfl,
    keepsSignificantBits_of_eq rfl fun _ => wordXKK_of_key_low_byte rfl rfl rfl,
    keepsSignificantBits_of_eq rfl fun _ => wordXKK_of_key_low_byte rfl rfl rfl⟩

/-- What a row reads from a word is well formed: a row count is read from four bits. -/
theorem wellFormed_of_mem : ∀ r ∈ opcodeMap, ∀ w : Word, (r.build w).wellFormed = true := by
  simp only [opcodeMap, List.cons_append, List.nil_append, List.forall_mem_cons]
  simp [Instr.wellFormed, fieldN_eq_mod, Nat.mod_lt]

/-- Settles O7: the row the word decodes by keeps its significant bits. -/
theorem encodeOfDecodeKeepsEverySignificantBit : Obligations.EncodeOfDecodeKeepsEverySignificantBit := by
  intro w i hw
  obtain ⟨r, hr, hkey, rfl⟩ := decodeWord_some hw
  rw [← significantMask_fieldT]
  exact ⟨wellFormed_of_mem r hr w, keepsSignificantBits_of_mem r hr w hkey⟩

/-! ## Words of each family (R76) -/

/-- Settles O3: the opcode map, run on twelve words. -/
theorem wordsDecodeToTheirInstructions : Obligations.WordsDecodeToTheirInstructions := by
  unfold Obligations.WordsDecodeToTheirInstructions
  decide

end Sys2Proof
end

section
namespace Sys2Proof.Machine

/-! ## Memory (R56, R57) -/

/-- Settles O10: a write is a poke when it is in bounds, and both accesses raise when it is not. -/
theorem memoryReadsBackWhatWasWritten : Obligations.MemoryReadsBackWhatWasWritten := by
  constructor
  · intro m a b hm ha
    refine ⟨m.poke a b, Memory.write_ok.mpr ⟨ha, rfl⟩, Memory.wf_poke hm ha, ?same, fun a' hne => ?other⟩
    case same => rw [Memory.read_ok, Memory.peek_poke hm.1, if_pos rfl]; exact ⟨ha, rfl⟩
    case other => rw [Memory.peek_poke hm.1, if_neg hne]
  · intro m a b ha
    exact ⟨Memory.write_error.mpr ⟨ha, rfl⟩, Memory.read_of_ge ha⟩

/-! ## Reset and load (R190 to R193) -/

theorem fontTable_length : fontTable.length = 80 := rfl

theorem peek_reset (a : Nat) : State.reset.mem.peek a = fontTable.getD a 0 := rfl

/-- Settles O8: the fields of the reset state as they are written; unlisted memory reads as the font table, then 0. -/
theorem resetStateHoldsTheStatedValues : Obligations.ResetStateHoldsTheStatedValues := by
  refine ⟨fun x => ?regs, rfl, rfl, rfl, rfl, rfl, cell_blankDisplay, fun k => ?keys, rfl, rfl, rfl, ?font, fun a ha => ?rest⟩
  case regs => simp only [State.reg, State.reset, Vector.get_eq_getElem, Vector.getElem_replicate]
  case keys => simp only [State.reset, Vector.get_eq_getElem, Vector.getElem_replicate]
  case font => decide
  case rest => rw [peek_reset, List.getD_eq_default _ _ (by rw [fontTable_length]; exact ha)]

/-- Settles O9: the ROM load places the ROM's bytes in the reset memory, within the bounds that the limit leaves it. -/
theorem bootPlacesTheRomOrRefusesIt : Obligations.BootPlacesTheRomOrRefusesIt := by
  constructor
  · intro rom hrom
    have hwf : State.reset.mem.wf := Memory.wf_nil
    have hpeek (a : Nat) := Memory.peek_place (a := 0x200) (a' := a) (bs := rom) hwf.1
    refine ⟨State.reset.withRom rom, ?boots, State.withRom_frame, ?canonical, fun n hn => ?placed, fun a ha => ?kept⟩
    case boots => rw [boot_eq, if_pos hrom]
    case canonical => exact Memory.wf_place hwf (by simp only [Config.progStart, Config.memSize]; omega)
    case placed =>
      rw [State.withRom_mem, hpeek, dif_pos (by omega)]
      simp only [Nat.add_sub_cancel_left]
    case kept => rw [State.withRom_mem, hpeek, dif_neg (by omega)]
  · intro rom hrom
    rw [boot_eq, if_neg (by omega)]

/-- Settles O57: the two loads after one another, each read back by `Memory.peek_loads`. -/
theorem bootLoadsTheFontItIsGiven : Obligations.BootLoadsTheFontItIsGiven := by
  refine ⟨fun font rom hfont hrom => ?loads, fun font rom hfont => ?refuses, State.withFont_fontTable⟩
  case loads =>
    have hwf : State.reset.mem.wf := Memory.wf_nil
    have hpeek (a : Nat) : ((State.reset.withFont font).withRom rom).mem.peek a = _ :=
      Memory.peek_loads (rom := rom) (a := a) hwf hfont
    have hfontWf : (State.reset.withFont font).mem.wf := Memory.wf_place hwf (by rw [hfont]; decide)
    refine ⟨(State.reset.withFont font).withRom rom, ?boots, rfl, ?canonical, fun k hk => ?font, fun n hn => ?rom,
      fun a hfar ha => ?zero⟩
    case boots => rw [bootFrom_eq, if_pos ⟨hfont, hrom⟩]
    case canonical => exact Memory.wf_place hfontWf (by simp only [Config.progStart, Config.memSize]; omega)
    case font => rw [hpeek, dif_neg (by omega), dif_pos (by omega)]
    case rom =>
      rw [hpeek, dif_pos (by omega)]
      simp only [Nat.add_sub_cancel_left]
    case zero =>
      rw [hpeek, dif_neg (by omega), dif_neg (by omega), peek_reset,
        List.getD_eq_default _ _ (by rw [fontTable_length]; exact hfar)]
  case refuses => rw [bootFrom_eq, if_neg (fun h => hfont h.1)]

end Sys2Proof.Machine
end

section
namespace Sys2Proof.Machine

/-! ## What each handler may write (R94) -/

/-- The fields an instruction may write when it raises nothing: `pc` alone, `V` (with the host's random bytes and the count of
free values), or, for the instructions that write another field, that one. -/
inductive HandlerFrame (s t : State) : Instr → Prop where
  | pcOnly {i : Instr} (h : t = { s with pc := t.pc }) : HandlerFrame s t i
  | regsOnly {i : Instr} (h : t = { s with v := t.v, rndIn := t.rndIn, draws := t.draws }) : HandlerFrame s t i
  | cls (h : t = { s with display := t.display, redraw := t.redraw }) : HandlerFrame s t .cls
  | drw {x y : RegIx} {n : Nat} (h : t = { s with v := t.v, display := t.display, redraw := t.redraw }) :
      HandlerFrame s t (.drw x y n)
  | ret (h : t = { s with pc := t.pc, stack := t.stack }) : HandlerFrame s t .ret
  | call {nnn : BitVec 12} (h : t = { s with pc := t.pc, stack := t.stack }) : HandlerFrame s t (.call nnn)
  | ldI {nnn : BitVec 12} (h : t = { s with i := t.i }) : HandlerFrame s t (.ldI nnn)
  | addI {x : RegIx} (h : t = { s with i := t.i }) : HandlerFrame s t (.addI x)
  | ldF {x : RegIx} (h : t = { s with i := t.i }) : HandlerFrame s t (.ldF x)
  | ldDtVx {x : RegIx} (h : t = { s with dt := t.dt }) : HandlerFrame s t (.ldDtVx x)
  | ldStVx {x : RegIx} (h : t = { s with st := t.st }) : HandlerFrame s t (.ldStVx x)
  | ldB {x : RegIx} (h : t = { s with mem := t.mem }) : HandlerFrame s t (.ldB x)
  | ldMemVx {x : RegIx} (h : t = { s with mem := t.mem }) : HandlerFrame s t (.ldMemVx x)

theorem HandlerFrame.skip {i : Instr} {s t : State} {c : Bool} (h : t = s.skipIf c) : HandlerFrame s t i :=
  .pcOnly (by rw [h]; rfl)

theorem HandlerFrame.jump {i : Instr} {s t : State} {w : Word} (h : t = s.setPc w) : HandlerFrame s t i :=
  .pcOnly (by rw [h]; rfl)

theorem HandlerFrame.setReg {i : Instr} {s t : State} {x : RegIx} {b : Byte} (h : t = s.setReg x b) : HandlerFrame s t i :=
  .regsOnly (by rw [h]; rfl)

theorem HandlerFrame.alu {i : Instr} {s t : State} {res flag : Byte → Byte → Byte} {x y : RegIx}
    (h : t = s.alu Config.vfAlias res flag x y) : HandlerFrame s t i :=
  .regsOnly (by rw [h, State.alu_frame])

/-- Every handler that raises nothing keeps to its frame. -/
theorem HandlerEffect.frame {i : Instr} {s t : State} (h : HandlerEffect i s t) : HandlerFrame s t i := by
  cases i with
  | cls => exact .cls (by rw [show t = _ from h]; rfl)
  | ret =>
    obtain ⟨_, _, _, rfl⟩ := retState_ok h
    exact .ret rfl
  | jp nnn => exact .jump h
  | call nnn => exact .call (by rw [show t = _ from h])
  | seImm x kk => exact .skip h
  | sneImm x kk => exact .skip h
  | seReg x y => exact .skip h
  | ldImm x kk => exact .setReg h
  | addImm x kk => exact .setReg h
  | ldReg x y => exact .setReg h
  | orReg x y => exact .setReg h
  | andReg x y => exact .setReg h
  | xorReg x y => exact .setReg h
  | addReg x y => exact .alu h
  | subReg x y => exact .alu h
  | shr x y => exact .alu h
  | subnReg x y => exact .alu h
  | shl x y => exact .alu h
  | sneReg x y => exact .skip h
  | ldI nnn => exact .ldI (by rw [show t = _ from h]; rfl)
  | jpV0 nnn => exact .jump h
  | rnd x kk => exact .regsOnly (by rw [show t = _ from h]; rfl)
  | drw x y n =>
    obtain ⟨_, _, rfl⟩ := drwState_ok h
    exact .drw rfl
  | skp x => exact .skip h
  | sknp x => exact .skip h
  | ldVxDt x => exact .setReg h
  | ldVxK x =>
    rcases h with ⟨_, _, h⟩ | ⟨_, h⟩
    · exact .setReg h
    · exact .jump h
  | ldDtVx x => exact .ldDtVx (by rw [show t = _ from h]; rfl)
  | ldStVx x => exact .ldStVx (by rw [show t = _ from h]; rfl)
  | addI x => exact .addI (by rw [show t = _ from h]; rfl)
  | ldF x => exact .ldF (by rw [show t = _ from h]; rfl)
  | ldB x =>
    obtain ⟨_, _, rfl⟩ := storeState_ok h
    exact .ldB rfl
  | ldMemVx x =>
    obtain ⟨_, _, rfl⟩ := storeState_ok h
    exact .ldMemVx rfl
  | ldVxMem x =>
    have hv := (loadState_ok h).2.1
    exact .regsOnly (by rw [hv])

/-- A handler that leaves the block running kept to its frame. -/
theorem exec_frame {i : Instr} {s t : State} (h : exec i s = .next t) (ht : t.running) : HandlerFrame s t i :=
  (exec_running h ht).frame

/-! ### The frame, field by field -/

section
variable {i : Instr} {s t : State} (hf : HandlerFrame s t i)
include hf

theorem HandlerFrame.stack_eq (hret : i ≠ .ret) (hcall : ∀ nnn, i ≠ .call nnn) : t.stack = s.stack := by
  cases hf with
  | ret => exact absurd rfl hret
  | call => exact absurd rfl (hcall _)
  | _ h => exact (congrArg State.stack h :)

theorem HandlerFrame.mem_eq (hldB : ∀ x, i ≠ .ldB x) (hdump : ∀ x, i ≠ .ldMemVx x) : t.mem = s.mem := by
  cases hf with
  | ldB => exact absurd rfl (hldB _)
  | ldMemVx => exact absurd rfl (hdump _)
  | _ h => exact (congrArg State.mem h :)

theorem HandlerFrame.display_eq (hcls : i ≠ .cls) (hdrw : ∀ x y n, i ≠ .drw x y n) :
    t.display = s.display ∧ t.redraw = s.redraw := by
  cases hf with
  | cls => exact absurd rfl hcls
  | drw => exact absurd rfl (hdrw _ _ _)
  | _ h => exact ⟨(congrArg State.display h :), (congrArg State.redraw h :)⟩

theorem HandlerFrame.i_eq (hldI : ∀ nnn, i ≠ .ldI nnn) (haddI : ∀ x, i ≠ .addI x) (hldF : ∀ x, i ≠ .ldF x) : t.i = s.i := by
  cases hf with
  | ldI => exact absurd rfl (hldI _)
  | addI => exact absurd rfl (haddI _)
  | ldF => exact absurd rfl (hldF _)
  | _ h => exact (congrArg State.i h :)

theorem HandlerFrame.dt_eq (h15 : ∀ x, i ≠ .ldDtVx x) : t.dt = s.dt := by
  cases hf with
  | ldDtVx => exact absurd rfl (h15 _)
  | _ h => exact (congrArg State.dt h :)

theorem HandlerFrame.st_eq (h18 : ∀ x, i ≠ .ldStVx x) : t.st = s.st := by
  cases hf with
  | ldStVx => exact absurd rfl (h18 _)
  | _ h => exact (congrArg State.st h :)

theorem HandlerFrame.tone_eq : t.tone = s.tone := by
  cases hf with | _ h => exact (congrArg State.tone h :)

theorem HandlerFrame.keys_eq : t.keys = s.keys ∧ t.keyIn = s.keyIn := by
  cases hf with | _ h => exact ⟨(congrArg State.keys h :), (congrArg State.keyIn h :)⟩

end

/-- Settles O47: the stack's part of the frame. -/
theorem stackIsTouchedOnlyByCallAndRet : Obligations.StackIsTouchedOnlyByCallAndRet := fun _ _ _ h ht =>
  (exec_frame h ht).stack_eq

/-- Settles O48: the memory's part of the frame. -/
theorem memoryIsWrittenOnlyByTheStores : Obligations.MemoryIsWrittenOnlyByTheStores := fun _ _ _ h ht =>
  (exec_frame h ht).mem_eq

/-- Settles O49: the display's part of the frame. -/
theorem displayIsWrittenOnlyByClsAndDrw : Obligations.DisplayIsWrittenOnlyByClsAndDrw := fun _ _ _ h ht =>
  (exec_frame h ht).display_eq

/-- Settles O50: the index register's part of the frame. -/
theorem indexIsWrittenOnlyByItsThree : Obligations.IndexIsWrittenOnlyByItsThree := fun _ _ _ h ht =>
  (exec_frame h ht).i_eq

/-- Settles O51: the timers' and the tone's part of the frame. -/
theorem timersAreWrittenOnlyByTheirMoves : Obligations.TimersAreWrittenOnlyByTheirMoves := fun _ _ _ h ht =>
  have hf := exec_frame h ht
  ⟨hf.dt_eq, hf.st_eq, hf.tone_eq⟩

end Sys2Proof.Machine
end

section
namespace Sys2Proof.Machine

/-! ## What a handler may raise (R171) -/

/-- The faults each instruction can raise, with the bounds on what they record. No instruction raises another: `STACK_LIMIT` is
none, and an unknown opcode is raised by the cycle. -/
inductive Raises : Instr → Raise → Prop where
  | stackUnderflow {pc : Word} : Raises .ret (.stackUnderflow pc)
  | memBounds {i : Instr} {a n : Nat} {x y : RegIx} (hi : i ∈ [.drw x y n, .ldB x, .ldMemVx x, .ldVxMem x])
      (ha : 4096 ≤ a) : Raises i (.memBounds a)
  | drawBounds {x y : RegIx} {n r : Nat} (hr : 32 ≤ r) : Raises (.drw x y n) (.drawBounds r)

theorem targetRow_error {y : Nat} {e : Raise} (h : targetRow true y = .error e) : ∃ r, 32 ≤ r ∧ e = .drawBounds r := by
  unfold targetRow at h
  split at h
  · cases h
  · rename_i hr
    cases h
    exact ⟨_, Nat.le_of_not_lt hr, rfl⟩

theorem raises_of_drwState {s : State} {x y : RegIx} {n : Nat} {e : Raise} (h : drwState Config.rowWrapAtH x y n s = .error e) :
    Raises (.drw x y n) e := by
  obtain ⟨_, _, _, _, _, ⟨ha, rfl⟩ | ⟨_, hrow⟩⟩ := drawRows_error (drwState_error h)
  · exact .memBounds (x := x) (y := y) (n := n) (by simp) ha
  · obtain ⟨r, hr, rfl⟩ := targetRow_error hrow
    exact .drawBounds hr

theorem memBounds_of_storeState {s : State} {l : List (Nat × Byte)} {e : Raise} (h : storeState l s = .error e) :
    ∃ a, 4096 ≤ a ∧ e = .memBounds a := by
  obtain ⟨_, _, _, _, _, ha, rfl⟩ := Memory.writeAll_error (storeState_error h)
  exact ⟨_, ha, rfl⟩

/-! ## Handlers whose answer is not their definition read off -/

theorem exec_call (nnn : BitVec 12) (s : State) :
    exec (.call nnn) s = .next { s with pc := zext16 nnn, stack := s.pc :: s.stack } := by
  rw [show exec (.call nnn) s = finish s (callState none nnn s) from rfl, callState_none]
  rfl

theorem exec_ldVxK_of_some {x : RegIx} {s : State} {k : Fin 16} (hk : firstPressed s.keys = some k) :
    exec (.ldVxK x) s = .next (s.setReg x (BitVec.ofNat 8 k.val)) := by
  simp only [exec, execLdVxK, hk, State.setReg]

theorem exec_ldVxK_of_none {x : RegIx} {s : State} (hk : firstPressed s.keys = none) :
    exec (.ldVxK x) s = .next (s.setPc (s.pc - 2)) := by
  simp only [exec, execLdVxK, hk, State.setPc]

/-- Everything a handler can do: its effect, or fault entry with a fault of its own. -/
theorem exec_effect_or_raises {i : Instr} {s t : State} (h : exec i s = .next t) :
    HandlerEffect i s t ∨ ∃ e, Raises i e ∧ t = s.raise e := by
  cases i
  case ret =>
    refine (finish_cases h).imp id fun ⟨e, he, ht⟩ => ⟨e, ?_, ht⟩
    obtain ⟨_, rfl⟩ := retState_error he
    exact .stackUnderflow
  case drw => exact (finish_cases h).imp id fun ⟨e, he, ht⟩ => ⟨e, raises_of_drwState he, ht⟩
  case ldB x =>
    refine (finish_cases h).imp id fun ⟨e, he, ht⟩ => ⟨e, ?_, ht⟩
    obtain ⟨a, ha, rfl⟩ := memBounds_of_storeState he
    exact .memBounds (x := x) (y := x) (n := 0) (by simp) ha
  case ldMemVx x =>
    refine (finish_cases h).imp id fun ⟨e, he, ht⟩ => ⟨e, ?_, ht⟩
    obtain ⟨a, ha, rfl⟩ := memBounds_of_storeState he
    exact .memBounds (x := x) (y := x) (n := 0) (by simp) ha
  case ldVxMem x =>
    refine (finish_cases h).imp id fun ⟨e, he, ht⟩ => ⟨e, ?_, ht⟩
    obtain ⟨_, _, _, _, _, ha, rfl⟩ := loadState_error he
    exact .memBounds (x := x) (y := x) (n := 0) (by simp) ha
  case call nnn =>
    left
    rw [exec_call] at h
    cases h; rfl
  case ldVxK x =>
    left
    cases hk : firstPressed s.keys with
    | none => rw [exec_ldVxK_of_none hk] at h; cases h; exact .inr ⟨hk, rfl⟩
    | some k => rw [exec_ldVxK_of_some hk] at h; cases h; exact .inl ⟨k, hk, rfl⟩
  all_goals (left; cases h; rfl)

/-! ## The cycle (R90) -/

/-- Once a fault is recorded there is no step. -/
theorem step_of_fault {s : State} {r : FaultRecord} (h : s.fault = some r) : step s = .fault (.stopped r) := by
  rw [step, h]

/-- A step that answers a next state began in a running one. -/
theorem running_of_step {s t : State} (h : step s = .next t) : s.running := by
  cases hs : s.fault with
  | none => exact hs
  | some r => rw [step_of_fault hs] at h; cases h

/-- Everything a step can lead to: fault entry at fetch, fault entry at decode, or what the handler left, its cycle closed. -/
theorem step_next_cases {s t : State} (h : step s = .next t) :
    (4096 ≤ s.pc.toNat + 1 ∧ t = s.latchKeys.enterFault s.pc none
        (.memBounds (if 4096 ≤ s.pc.toNat then s.pc.toNat else s.pc.toNat + 1))) ∨
    (s.pc.toNat + 1 < 4096 ∧ decodeWord (wordAt s.mem s.pc.toNat) = none ∧
      t = s.latchKeys.enterFault s.pc (some (wordAt s.mem s.pc.toNat)) (.unknownOpcode (wordAt s.mem s.pc.toNat))) ∨
    (∃ w i u, s.runs w i ∧ exec i (s.entry w) = .next u ∧ t = u.closeCycle) := by
  rcases step_cases (running_of_step h) with ⟨hpc, hstep⟩ | ⟨hpc, _, rfl, hd, hstep⟩ | ⟨w, i, hruns, hstep⟩
  · rw [hstep] at h
    cases h
    exact .inl ⟨hpc, rfl⟩
  · rw [hstep] at h
    cases h
    exact .inr (.inl ⟨hpc, hd, rfl⟩)
  · obtain ⟨u, hu⟩ := exec_next i (s.entry w)
    rw [hstep, hu] at h
    cases h
    exact .inr (.inr ⟨w, i, u, hruns, hu, rfl⟩)

/-- When the word at `pc` is an instruction, the step is its handler's, then the end of the cycle. -/
theorem step_of_runs {s : State} {w : Word} {i : Instr} (h : s.runs w i) :
    step s = match exec i (s.entry w) with
      | .next t => .next t.closeCycle
      | .fault f => .fault f
      | .refused r => .refused r := by
  obtain ⟨hs, hpc, hw, hd⟩ := h
  rcases step_cases hs with ⟨hpc', _⟩ | ⟨_, _, hw', hd', _⟩ | ⟨w', i', ⟨_, _, hw', hd'⟩, hstep⟩
  · omega
  · rw [← hw', hw, hd] at hd'
    cases hd'
  · obtain rfl : w' = w := hw'.symm.trans hw
    obtain rfl : i' = i := Option.some.inj (hd'.symm.trans hd)
    exact hstep

theorem step_next_of_runs {s u : State} {w : Word} {i : Instr} (h : s.runs w i) (hu : exec i (s.entry w) = .next u) :
    step s = .next u.closeCycle := by
  rw [step_of_runs h, hu]

/-- The end of a cycle, written out (R95 to R97). -/
theorem State.closeCycle_eq_ite (t : State) : t.closeCycle =
    if t.fault = none then
      { t with
        dt := if t.dt = 0 then 0 else t.dt - 1
        st := if t.st = 0 then 0 else t.st - 1
        tone := decide (t.st = 1)
        redraw := false }
    else t := by
  cases ht : t.fault with
  | none => rw [State.closeCycle_of_running ht, if_pos rfl]; rw [← ht]; rfl
  | some r => rw [State.closeCycle_of_fault ht, if_neg (by simp)]

/-- Settles O12: the step of a decoded word, with the end of the cycle written out. -/
theorem stepRunsTheDecodedInstruction : Obligations.StepRunsTheDecodedInstruction := by
  intro s w i h
  rw [step_of_runs h]
  cases exec i (s.entry w) with
  | next t => exact congrArg Host.Outcome.next t.closeCycle_eq_ite
  | fault f => rfl
  | refused r => rfl

/-- Settles O13: the first of the three things a step can do. -/
theorem fetchOutOfBoundsFaults : Obligations.FetchOutOfBoundsFaults := by
  intro s hs hpc
  obtain ⟨_, hstep⟩ | ⟨hpc', _⟩ | ⟨_, _, ⟨_, hpc', _⟩, _⟩ := step_cases hs
  · refine ⟨_, hstep, State.enterFault_tone .., ?_⟩
    have haddr : (if 4096 ≤ s.pc.toNat then s.pc.toNat else s.pc.toNat + 1)
        = if s.pc.toNat = 4095 then 4096 else s.pc.toNat := by split <;> split <;> omega
    rw [State.enterFault_fault, ← haddr]
    rfl
  all_goals exact absurd hpc' (by simp only [Config.memSize]; omega)

/-- Settles O14: the second of the three things a step can do. -/
theorem unknownOpcodeFaults : Obligations.UnknownOpcodeFaults := by
  intro s hs hpc hd
  rcases step_cases hs with ⟨hpc', _⟩ | ⟨_, _, rfl, _, hstep⟩ | ⟨_, _, ⟨_, _, rfl, hd'⟩, _⟩
  · exact absurd hpc (Nat.not_lt.mpr hpc')
  · exact ⟨_, hstep, State.enterFault_tone .., State.enterFault_fault ..⟩
  · rw [hd] at hd'; cases hd'

/-- Settles O15: `step` looks at the fault field first. -/
theorem stoppedBlockTakesNoStep : Obligations.StoppedBlockTakesNoStep := fun _ _ => step_of_fault

/-- Settles O16: both fault entries are next states, and so is what any handler leaves. -/
theorem runningBlockAnswersANextState : Obligations.RunningBlockAnswersANextState := by
  intro s hs
  rcases step_cases hs with ⟨_, hstep⟩ | ⟨_, _, _, _, hstep⟩ | ⟨w, i, hruns, _⟩
  · exact ⟨_, hstep⟩
  · exact ⟨_, hstep⟩
  · obtain ⟨u, hu⟩ := exec_next i (s.entry w)
    exact ⟨_, step_next_of_runs hruns hu⟩

/-- What a cycle leaves when its handler raises nothing. -/
theorem closeCycle_of_effect {i : Instr} {s u : State} {w : Word} (hs : s.running) (hu : HandlerEffect i (s.entry w) u) :
    u.running ∧ u.closeCycle = u.tick.render := by
  have hrun : u.running := hu.fault.trans hs
  exact ⟨hrun, State.closeCycle_of_running hrun⟩

/-- Settles O17: the record is one of fault entry's at fetch, at decode or in the handler, which raises only its own faults. -/
theorem faultRecordNamesTheFaultingInstruction : Obligations.FaultRecordNamesTheFaultingInstruction := by
  intro s t r hs hstep hr
  rcases step_next_cases hstep with ⟨hpc, rfl⟩ | ⟨hpc, hd, rfl⟩ | ⟨w, i, u, ⟨_, hpc, rfl, hd⟩, hu, rfl⟩
  · cases hr
    exact ⟨rfl, rfl, .inl ⟨by omega, rfl, rfl⟩⟩
  · cases hr
    exact ⟨rfl, rfl, .inr ⟨by omega, rfl, .inl ⟨rfl, hd⟩⟩⟩
  · rcases exec_effect_or_raises hu with heff | ⟨e, he, rfl⟩
    · obtain ⟨hrun, hclose⟩ := closeCycle_of_effect hs heff
      rw [hclose, State.render_fault, State.tick_fault, hrun] at hr
      cases hr
    · rw [State.closeCycle_of_fault (State.raise_fault ..)] at hr ⊢
      cases hr
      refine ⟨rfl, rfl, .inr ⟨Nat.lt_of_succ_lt_succ hpc, rfl, .inr ?_⟩⟩
      cases he with
      | stackUnderflow => exact .inl ⟨rfl, hd⟩
      | @memBounds _ _ n x y hi ha =>
        refine .inr (.inl ⟨rfl, ha, x, y, n, ?_⟩)
        rw [hd]
        exact List.mem_map_of_mem (f := some) hi
      | @drawBounds x y n _ hrow => exact .inr (.inr ⟨rfl, hrow, x, y, n, hd⟩)

/-! ## Keys (R98) -/

@[simp] theorem State.closeCycle_keys (s : State) : s.closeCycle.keys = s.keys := by
  unfold State.closeCycle; split <;> rfl

@[simp] theorem State.closeCycle_keyIn (s : State) : s.closeCycle.keyIn = s.keyIn := by
  unfold State.closeCycle; split <;> rfl

/-- No handler changes the keys or the host's queue of key vectors, fault entry included. -/
theorem exec_keys {i : Instr} {s t : State} (h : exec i s = .next t) : t.keys = s.keys ∧ t.keyIn = s.keyIn := by
  rcases exec_effect_or_raises h with heff | ⟨e, _, rfl⟩
  · exact heff.frame.keys_eq
  · exact ⟨rfl, rfl⟩

/-- Settles O18: the latch of the cycle's beginning is still there at its end. -/
theorem keysAreLatchedOncePerCycle : Obligations.KeysAreLatchedOncePerCycle := by
  refine ⟨fun s t hstep => ?_, fun i s t h => exec_keys h⟩
  rcases step_next_cases hstep with ⟨_, rfl⟩ | ⟨_, _, rfl⟩ | ⟨w, i, u, _, hu, rfl⟩
  · exact ⟨rfl, rfl⟩
  · exact ⟨rfl, rfl⟩
  · obtain ⟨hkeys, hkeyIn⟩ := exec_keys hu
    exact ⟨u.closeCycle_keys.trans hkeys, u.closeCycle_keyIn.trans hkeyIn⟩

/-! ## Timers (R178, R179) -/

/-- One tick of a timer: down by 1, never below 0. -/
theorem toNat_tick (b : Byte) : (if b = 0 then 0 else b - 1).toNat = b.toNat - 1 := by
  split
  · rename_i hb; rw [hb]; rfl
  · rename_i hb; bv_omega

/-- Settles O19: the tick at the end of a cycle that does not fault; before it only FX15 writes `DT`. -/
theorem delayTimerTicksOncePerCycle : Obligations.DelayTimerTicksOncePerCycle := by
  intro s w i u hruns hu hrun
  have hdt : u.tick.render.dt.toNat = u.dt.toNat - 1 := toNat_tick u.dt
  refine ⟨u.tick.render, ?steps, hdt, fun h15 => ?kept⟩
  case steps => rw [step_next_of_runs hruns hu, State.closeCycle_of_running hrun]
  case kept => rw [hdt, (exec_frame hu hrun).dt_eq h15]; rfl

/-- Settles O20: the tick takes `ST` to 0 exactly from 1, which is when it triggers the tone. -/
theorem soundTimerTriggersTheToneAtZero : Obligations.SoundTimerTriggersTheToneAtZero := by
  intro s w i u hruns hu hrun
  have hst : u.tick.render.st.toNat = u.st.toNat - 1 := toNat_tick u.st
  refine ⟨u.tick.render, ?steps, hst, ?tone⟩
  case steps => rw [step_next_of_runs hruns hu, State.closeCycle_of_running hrun]
  case tone =>
    rw [hst, State.render_tone, State.tick_tone, decide_eq_true_iff, ← BitVec.toNat_inj]
    show u.st.toNat = 1 ↔ _
    omega

end Sys2Proof.Machine
end

section
namespace Sys2Proof.Machine

/-! ## The invariant (R27, R39, R97, R102) -/

/-- Everything a handler that raises nothing can leave in `pc`: what it found, a skip, a wait, a jump's target, or a return
address. -/
inductive NextPc (s : State) : Word → Prop where
  | stay : NextPc s s.pc
  | skip : NextPc s (s.pc + 2)
  | wait : NextPc s (s.pc - 2)
  | jump {nnn : BitVec 12} : NextPc s (zext16 nnn)
  | jumpOffset {nnn : BitVec 12} {b : Byte} : NextPc s (zext16 nnn + b.setWidth 16)
  | ret {w : Word} (h : w ∈ s.stack) : NextPc s w

theorem NextPc.of_eq {s t : State} (h : t.pc = s.pc) : NextPc s t.pc := h ▸ .stay

theorem NextPc.skipIf {s t : State} {c : Bool} (h : t = s.skipIf c) : NextPc s t.pc := by
  rw [h]
  cases c
  · exact .stay
  · exact .skip

theorem NextPc.alu {s t : State} {res flag : Byte → Byte → Byte} {x y : RegIx}
    (h : t = s.alu Config.vfAlias res flag x y) : NextPc s t.pc := .of_eq (by rw [h, State.alu_frame])

/-- What every handler leaves in `pc`. -/
theorem HandlerEffect.nextPc {i : Instr} {s t : State} (h : HandlerEffect i s t) : NextPc s t.pc := by
  cases i with
  | ret =>
    obtain ⟨w, rest, hstack, rfl⟩ := retState_ok h
    exact .ret (by simp [hstack])
  | jp nnn => rw [show t = _ from h]; exact .jump
  | call nnn => rw [show t = _ from h]; exact .jump
  | jpV0 nnn => rw [show t = _ from h]; exact .jumpOffset
  | seImm x kk => exact .skipIf h
  | sneImm x kk => exact .skipIf h
  | seReg x y => exact .skipIf h
  | sneReg x y => exact .skipIf h
  | skp x => exact .skipIf h
  | sknp x => exact .skipIf h
  | ldVxK x =>
    rcases h with ⟨_, _, rfl⟩ | ⟨_, rfl⟩
    · exact .stay
    · exact .wait
  | addReg x y => exact .alu h
  | subReg x y => exact .alu h
  | shr x y => exact .alu h
  | subnReg x y => exact .alu h
  | shl x y => exact .alu h
  | drw x y n =>
    obtain ⟨_, _, rfl⟩ := drwState_ok h
    exact .stay
  | ldB x =>
    obtain ⟨_, _, rfl⟩ := storeState_ok h
    exact .stay
  | ldMemVx x =>
    obtain ⟨_, _, rfl⟩ := storeState_ok h
    exact .stay
  | ldVxMem x => exact .of_eq (by rw [(loadState_ok h).2.1])
  | _ => exact .of_eq (by rw [show t = _ from h]; rfl)

theorem toNat_zext16 (nnn : BitVec 12) : (zext16 nnn).toNat = nnn.toNat := BitVec.toNat_setWidth_of_le (by decide)

/-- A 12-bit address and a byte add without wrapping. -/
theorem toNat_jump_offset (nnn : BitVec 12) (b : Byte) : (zext16 nnn + b.setWidth 16).toNat = nnn.toNat + b.toNat := by
  have hb : (b.setWidth 16).toNat = b.toNat := BitVec.toNat_setWidth_of_le (by decide)
  have hnnn := nnn.isLt
  have hlt := b.isLt
  rw [BitVec.toNat_add, toNat_zext16, hb]
  omega

/-- From a `pc` inside memory and return addresses inside memory, no handler takes `pc` above 0x10FE (R27). -/
theorem NextPc.le {s : State} {w : Word} (h : NextPc s w) (hlow : 2 ≤ s.pc.toNat) (hpc : s.pc.toNat ≤ 4096)
    (hstack : ∀ e ∈ s.stack, e.toNat ≤ 4096) : w.toNat ≤ 0x10FE := by
  cases h with
  | stay => omega
  | skip => bv_omega
  | wait => bv_omega
  | @jump nnn =>
    have hnnn := nnn.isLt
    rw [toNat_zext16]
    omega
  | @jumpOffset nnn b =>
    have hnnn := nnn.isLt
    have hb := b.isLt
    rw [toNat_jump_offset]
    omega
  | ret hmem => exact Nat.le_trans (hstack _ hmem) (by decide)

/-- From a `pc` inside memory, a handler leaves only return addresses inside memory. -/
theorem HandlerEffect.stack_le {i : Instr} {s t : State} (h : HandlerEffect i s t) (hpc : s.pc.toNat ≤ 4096)
    (hstack : ∀ e ∈ s.stack, e.toNat ≤ 4096) : ∀ e ∈ t.stack, e.toNat ≤ 4096 := by
  cases i with
  | ret =>
    obtain ⟨w, rest, hs, rfl⟩ := retState_ok h
    exact fun e he => hstack e (by rw [hs]; exact List.mem_cons_of_mem _ he)
  | call nnn =>
    rw [show t = _ from h]
    exact List.forall_mem_cons.mpr ⟨hpc, hstack⟩
  | _ => rw [h.frame.stack_eq (by simp) (by simp)]; exact hstack

theorem wf_of_storeState {l : List (Nat × Byte)} {s t : State} (h : storeState l s = .ok t) (hm : s.mem.wf) : t.mem.wf := by
  obtain ⟨m, hw, rfl⟩ := storeState_ok h
  exact Memory.wf_writeAll hm hw

/-- Every handler keeps the memory's canonical form. -/
theorem HandlerEffect.wf_mem {i : Instr} {s t : State} (h : HandlerEffect i s t) (hm : s.mem.wf) : t.mem.wf := by
  cases i with
  | ldB x => exact wf_of_storeState h hm
  | ldMemVx x => exact wf_of_storeState h hm
  | _ => rw [h.frame.mem_eq (by simp) (by simp)]; exact hm

/-- Fault entry leaves the invariant: canonical free memory, no tone, and no running block. -/
theorem State.enterFault_inv (s : State) (a : Word) (w : Option Word) (e : Raise) : (s.enterFault a w e).Inv :=
  ⟨Memory.wf_wreck _, fun h => (Bool.false_ne_true h).elim, fun h => (Option.some_ne_none _ h).elim⟩

/-- `pc` after the advance: inside memory, or just past it, and never 0 or 1. -/
theorem toNat_entry_pc {s : State} {w : Word} {i : Instr} (h : s.runs w i) : (s.entry w).pc.toNat = s.pc.toNat + 2 := by
  obtain ⟨_, hpc, _, _⟩ := h
  simp only [Config.memSize] at hpc
  show (s.pc + 2).toNat = _
  bv_omega

/-- A cycle whose handler raises nothing keeps the invariant. -/
theorem HandlerEffect.inv_closeCycle {i : Instr} {s u : State} {w : Word} (hs : s.Inv) (hruns : s.runs w i)
    (h : HandlerEffect i (s.entry w) u) : u.closeCycle.Inv := by
  obtain ⟨hmem, _, hrun⟩ := hs
  have hentry := toNat_entry_pc hruns
  obtain ⟨hrunning, hfetch, _, _⟩ := hruns
  obtain ⟨_, hstack, _⟩ := hrun hrunning
  have hpc : (s.entry w).pc.toNat ≤ 4096 := by rw [hentry]; exact Nat.succ_le_of_lt hfetch
  rw [(closeCycle_of_effect hrunning h).2]
  refine ⟨?memory, ?tone, fun _ => ⟨?pc, ?stack, rfl⟩⟩
  case memory => exact h.wf_mem hmem
  case tone =>
    intro htone
    have hst : u.st = 1 := of_decide_eq_true htone
    show (if u.st = 0 then 0 else u.st - 1) = 0
    rw [hst]; decide
  case pc => exact h.nextPc.le (by omega) hpc hstack
  case stack => exact h.stack_le hpc hstack

/-- Settles O54: fault entry meets the invariant outright, and a handler's effect keeps each of its parts. -/
theorem everyCycleKeepsTheInvariant : Obligations.EveryCycleKeepsTheInvariant := by
  intro s t hs hstep
  rcases step_next_cases hstep with ⟨_, rfl⟩ | ⟨_, _, rfl⟩ | ⟨w, i, u, hruns, hu, rfl⟩
  · exact State.enterFault_inv ..
  · exact State.enterFault_inv ..
  · rcases exec_effect_or_raises hu with heff | ⟨e, _, rfl⟩
    · exact heff.inv_closeCycle hs hruns
    · rw [State.closeCycle_of_fault (State.raise_fault ..)]
      exact State.enterFault_inv ..

/-- The reset state with any canonical memory and any inputs ready meets the invariant: what every boot leaves. -/
theorem inv_of_reset_frame {s : State} {m : Memory} {ks : List Keys} {bs : List Byte} (hm : m.wf)
    (hs : s = { State.reset with mem := m, keyIn := ks, rndIn := bs }) : s.Inv := by
  subst hs
  refine ⟨hm, fun h => (Bool.false_ne_true h).elim, fun _ => ⟨(by decide : (0x200 : Word).toNat ≤ 0x10FE), ?_, rfl⟩⟩
  exact fun e he => (List.not_mem_nil he).elim

/-- Settles O55: the reset state, with no inputs ready. -/
theorem resetMeetsTheInvariant : Obligations.ResetMeetsTheInvariant := inv_of_reset_frame Memory.wf_nil rfl

/-- What every step keeps holds of every state a run reaches. -/
theorem Reaches.inv {s t : State} (h : Reaches s t) (hs : s.Inv) : t.Inv := by
  induction h with
  | here => exact hs
  | cycle _ hstep ih => exact everyCycleKeepsTheInvariant _ _ ih hstep

/-- Settles O56: a boot leaves the reset state with canonical memory, and every step keeps the invariant. -/
theorem everyRunFromABootMeetsTheInvariant : Obligations.EveryRunFromABootMeetsTheInvariant := by
  intro rom ks bs s t hboot hreach
  by_cases hrom : rom.length ≤ 3584
  · obtain ⟨s', hboot', hframe, hmem, _⟩ := bootPlacesTheRomOrRefusesIt.1 rom hrom
    obtain rfl : s' = s := Option.some.inj (hboot'.symm.trans hboot)
    exact hreach.inv (inv_of_reset_frame hmem (by rw [hframe]))
  · rw [bootPlacesTheRomOrRefusesIt.2 rom (by omega)] at hboot
    cases hboot

end Sys2Proof.Machine
end

section
namespace Sys2Proof.Machine

/-! ## VF (R22) -/

/-- A register write that changes VF names it. -/
theorem eq_vf_of_setReg {s t u : State} {x : RegIx} {b : Byte} (h : t = u.setReg x b) (hu : u.reg VF = s.reg VF)
    (hne : t.reg VF ≠ s.reg VF) : x = VF := by
  by_contra hx
  rw [h, State.reg_setReg_ne b (Ne.symm hx)] at hne
  exact hne hu

/-- Settles O52: the five ALU writers and DRW are listed as they are, and a register write that changes VF names it. -/
theorem vfChangesOnlyAsFlagOrDestination : Obligations.VfChangesOnlyAsFlagOrDestination := by
  intro i s t h ht hne
  have heff := exec_running h ht
  cases i with
  | addReg x y => exact .inl ⟨x, y, by simp⟩
  | subReg x y => exact .inl ⟨x, y, by simp⟩
  | shr x y => exact .inl ⟨x, y, by simp⟩
  | subnReg x y => exact .inl ⟨x, y, by simp⟩
  | shl x y => exact .inl ⟨x, y, by simp⟩
  | drw x y n => exact .inr (.inl ⟨x, y, n, rfl⟩)
  | ldImm x kk => cases eq_vf_of_setReg heff rfl hne; exact .inr (.inr ⟨kk, 0, by simp⟩)
  | addImm x kk => cases eq_vf_of_setReg heff rfl hne; exact .inr (.inr ⟨kk, 0, by simp⟩)
  | ldReg x y => cases eq_vf_of_setReg heff rfl hne; exact .inr (.inr ⟨0, y, by simp⟩)
  | orReg x y => cases eq_vf_of_setReg heff rfl hne; exact .inr (.inr ⟨0, y, by simp⟩)
  | andReg x y => cases eq_vf_of_setReg heff rfl hne; exact .inr (.inr ⟨0, y, by simp⟩)
  | xorReg x y => cases eq_vf_of_setReg heff rfl hne; exact .inr (.inr ⟨0, y, by simp⟩)
  | rnd x kk => cases eq_vf_of_setReg heff rfl hne; exact .inr (.inr ⟨kk, 0, by simp⟩)
  | ldVxDt x => cases eq_vf_of_setReg heff rfl hne; exact .inr (.inr ⟨0, 0, by simp⟩)
  | ldVxK x =>
    rcases heff with ⟨k, _, hset⟩ | ⟨_, rfl⟩
    · cases eq_vf_of_setReg hset rfl hne; exact .inr (.inr ⟨0, 0, by simp⟩)
    · exact absurd rfl hne
  | ldVxMem x =>
    obtain ⟨_, _, hregs⟩ := loadState_ok heff
    have hvf : VF ∈ regsUpTo x := by
      by_contra hvf
      rw [hregs VF, if_neg hvf] at hne
      exact hne rfl
    obtain rfl : x = VF := Fin.le_antisymm (Fin.le_last x) (mem_regsUpTo.mp hvf)
    exact .inr (.inr ⟨0, 0, by simp⟩)
  | ret =>
    obtain ⟨_, _, _, rfl⟩ := retState_ok heff
    exact absurd rfl hne
  | ldB x =>
    obtain ⟨_, _, rfl⟩ := storeState_ok heff
    exact absurd rfl hne
  | ldMemVx x =>
    obtain ⟨_, _, rfl⟩ := storeState_ok heff
    exact absurd rfl hne
  | _ => exact absurd (by rw [show t = _ from heff]; rfl) hne

/-! ## What a program learns of the keys (R35, R175) -/

/-- The state with other keys. -/
def State.withKeys (ks : Keys) (s : State) : State := { s with keys := ks }

section
variable (ks : Keys) (s : State)

/-- A handler's end with other keys is its end, with other keys: fault entry does not read them. -/
theorem finish_withKeys {r : Except Raise State} {t : State} (h : finish s r = .next t) :
    finish (s.withKeys ks) (r.map (State.withKeys ks)) = .next (t.withKeys ks) := by
  cases r <;> · cases h; rfl

theorem retState_withKeys : retState (s.withKeys ks) = (retState s).map (State.withKeys ks) := by
  obtain ⟨_, _, _, stack⟩ := s
  cases stack <;> rfl

theorem drwState_withKeys (w : Bool) (x y : RegIx) (n : Nat) :
    drwState w x y n (s.withKeys ks) = (drwState w x y n s).map (State.withKeys ks) := by
  have hrows : drawRows w (s.withKeys ks).mem (s.withKeys ks).i.toNat ((s.withKeys ks).reg x).toNat
      ((s.withKeys ks).reg y).toNat (List.range n) ⟨(s.withKeys ks).display, 0⟩ =
      drawRows w s.mem s.i.toNat (s.reg x).toNat (s.reg y).toNat (List.range n) ⟨s.display, 0⟩ := rfl
  rw [drwState, drwState, hrows]
  split <;> rfl

theorem storeState_withKeys (l : List (Nat × Byte)) :
    storeState l (s.withKeys ks) = (storeState l s).map (State.withKeys ks) := by
  rw [storeState, storeState, show (s.withKeys ks).mem = s.mem from rfl]
  split <;> rfl

theorem loadState_withKeys (l : List RegIx) :
    loadState l (s.withKeys ks) = (loadState l s).map (State.withKeys ks) := by
  induction l generalizing s with
  | nil => rfl
  | cons k l ih =>
    have hread : (s.withKeys ks).mem.read ((s.withKeys ks).indexAddr k.val) = s.mem.read (s.indexAddr k.val) := rfl
    rw [loadState, loadState, hread]
    split
    · rfl
    · exact ih (s.setReg k _)

theorem State.alu_withKeys (m : Config.VfAlias) (res flag : Byte → Byte → Byte) (x y : RegIx) :
    (s.withKeys ks).alu m res flag x y = (s.alu m res flag x y).withKeys ks := by
  unfold State.alu
  split
  · cases m <;> rfl
  · rfl

end

/-- Every instruction but the three that read the keys does the same whatever they are, fault entry included. -/
theorem exec_withKeys {i : Instr} {s t : State} {ks : Keys} (hi : ∀ x, i ≠ .skp x ∧ i ≠ .sknp x ∧ i ≠ .ldVxK x)
    (h : exec i s = .next t) : exec i (s.withKeys ks) = .next (t.withKeys ks) := by
  cases i with
  | skp x => obtain ⟨hskp, _, _⟩ := hi x; exact absurd rfl hskp
  | sknp x => obtain ⟨_, hsknp, _⟩ := hi x; exact absurd rfl hsknp
  | ldVxK x => obtain ⟨_, _, hwait⟩ := hi x; exact absurd rfl hwait
  | ret => exact (congrArg _ (retState_withKeys ks s)).trans (finish_withKeys ks s h)
  | drw x y n => exact (congrArg _ (drwState_withKeys ks s _ x y n)).trans (finish_withKeys ks s h)
  | ldB x => exact (congrArg _ (storeState_withKeys ks s (bcdStores x s))).trans (finish_withKeys ks s h)
  | ldMemVx x => exact (congrArg _ (storeState_withKeys ks s (dumpStores x s))).trans (finish_withKeys ks s h)
  | ldVxMem x => exact (congrArg _ (loadState_withKeys ks s (regsUpTo x))).trans (finish_withKeys ks s h)
  | addReg x y => cases h; exact congrArg Host.Outcome.next (State.alu_withKeys ks s ..)
  | subReg x y => cases h; exact congrArg Host.Outcome.next (State.alu_withKeys ks s ..)
  | shr x y => cases h; exact congrArg Host.Outcome.next (State.alu_withKeys ks s ..)
  | subnReg x y => cases h; exact congrArg Host.Outcome.next (State.alu_withKeys ks s ..)
  | shl x y => cases h; exact congrArg Host.Outcome.next (State.alu_withKeys ks s ..)
  | call nnn => rw [exec_call] at h ⊢; cases h; rfl
  | _ => cases h; rfl

/-- Settles O53: every other handler, run with other keys, does the same and keeps them. -/
theorem keysAreSeenOnlyByTheKeyInstructions : Obligations.KeysAreSeenOnlyByTheKeyInstructions := fun _ _ _ _ hi h =>
  exec_withKeys hi h

end Sys2Proof.Machine
end

section
namespace Sys2Proof.Machine

/-! ## Control flow (R100 to R108, R161) -/

theorem exec_ret_of_cons {s : State} {w : Word} {rest : List Word} (h : s.stack = w :: rest) :
    exec .ret s = .next { s with pc := w, stack := rest } := by
  simp only [exec, execRet, retState, State.pop, h, finish, State.setPc]

theorem exec_ret_of_nil {s : State} (h : s.stack = []) : exec .ret s = .next (s.raise (.stackUnderflow s.pc)) := by
  simp only [exec, execRet, retState, State.pop, h, finish]

/-- Settles O22: the two forms of the stack. -/
theorem retPopsOrUnderflows : Obligations.RetPopsOrUnderflows :=
  ⟨fun _ _ _ h => ⟨_, exec_ret_of_cons h, rfl, rfl, rfl, fun _ => rfl⟩,
    fun _ h => ⟨_, exec_ret_of_nil h, State.raise_fault ..⟩⟩

/-- Settles O23: the two targets, as numbers. -/
theorem jumpsSetPc : Obligations.JumpsSetPc := fun nnn s =>
  ⟨⟨s.setPc (zext16 nnn), rfl, toNat_zext16 nnn, rfl, fun _ => rfl⟩,
    ⟨s.setPc (zext16 nnn + (s.reg 0).setWidth 16), rfl, toNat_jump_offset nnn (s.reg 0), rfl, fun _ => rfl⟩⟩

/-- Settles O24: a call without a limit never faults; a limit is compared with the stack's length alone. -/
theorem callPushesTheReturnAddress : Obligations.CallPushesTheReturnAddress := by
  refine ⟨fun nnn s => ⟨_, exec_call nnn s, toNat_zext16 nnn, rfl, rfl, fun _ => rfl⟩,
    fun nnn s limit => ⟨fun h => ?full, fun h => ?free⟩⟩
  case full => rw [callState, State.push, if_pos (congrArg some h.symm)]
  case free =>
    have hne : ¬ some limit = some s.stack.length := fun heq => h (Option.some.inj heq).symm
    rw [callState_none, callState, State.push, if_neg hne]
    rfl

/-- Handlers in two parts: the second runs from where the first one stops. -/
theorem execAll_append {is js : List Instr} {s t : State} (h : execAll is s = .next t) :
    execAll (is ++ js) s = execAll js t := by
  induction is generalizing s with
  | nil => cases h; rfl
  | cons i is ih =>
    obtain ⟨u, hu⟩ := exec_next i s
    simp only [List.cons_append, execAll, hu] at h ⊢
    exact ih h

/-- Settles O25, by induction on the calls: the inner calls' returns come first, and the last return undoes the first call. -/
theorem callsThenAsManyReturnsRestoreTheState : Obligations.CallsThenAsManyReturnsRestoreTheState := by
  intro targets
  induction targets with
  | nil => exact fun s => rfl
  | cons nnn targets ih =>
    intro s
    have hlast : execAll [.ret] { s with pc := zext16 nnn, stack := s.pc :: s.stack } = .next s := by
      rw [execAll, exec_ret_of_cons rfl]
      rfl
    rw [List.map_cons, List.cons_append, List.length_cons, List.replicate_succ', ← List.append_assoc, execAll, exec_call]
    exact (execAll_append (ih _)).trans hlast

/-- Settles O26: the four skips, by the truth of their condition. -/
theorem registerSkipsFollowTheirCondition : Obligations.RegisterSkipsFollowTheirCondition := fun x y kk s =>
  ⟨⟨_, rfl, by simp, rfl, fun _ => rfl⟩, ⟨_, rfl, by simp, rfl, fun _ => rfl⟩,
    ⟨_, rfl, by simp, rfl, fun _ => rfl⟩, ⟨_, rfl, by simp, rfl, fun _ => rfl⟩⟩

/-! ## Registers (R109 to R114, R162) -/

/-- A register write: the register, every other register, and the frame. -/
theorem State.setReg_spec (s : State) (x : RegIx) (b : Byte) :
    (s.setReg x b).reg x = b ∧ (∀ r, r ≠ x → (s.setReg x b).reg r = s.reg r) ∧
      s.setReg x b = { s with v := (s.setReg x b).v } ∧ SameMemory s (s.setReg x b) :=
  ⟨State.reg_setReg_same x b, fun _ => State.reg_setReg_ne b, rfl, fun _ => rfl⟩

/-- Settles O27: two register writes, the sum taken modulo 256. -/
theorem immediateLoadAndAddWriteOneRegister : Obligations.ImmediateLoadAndAddWriteOneRegister := by
  refine fun x kk s => ⟨⟨_, rfl, s.setReg_spec x kk⟩, ⟨_, rfl, ?_⟩⟩
  obtain ⟨hx, hframe⟩ := s.setReg_spec x (BitVec.ofNat 8 ((s.reg x).toNat + kk.toNat))
  exact ⟨by rw [hx, BitVec.toNat_ofNat], hframe⟩

/-- Settles O28: four register writes. -/
theorem movesAndLogicWriteOneRegister : Obligations.MovesAndLogicWriteOneRegister := fun x _ s =>
  ⟨⟨_, rfl, s.setReg_spec x _⟩, ⟨_, rfl, s.setReg_spec x _⟩, ⟨_, rfl, s.setReg_spec x _⟩, ⟨_, rfl, s.setReg_spec x _⟩⟩

/-- Settles O29: a register write on the state after the draw. -/
theorem rndMasksTheDrawnByte : Obligations.RndMasksTheDrawnByte := by
  intro x kk s
  obtain ⟨hx, hother, _, hmem⟩ := s.afterDraw.setReg_spec x (s.drawnByte &&& kk)
  refine ⟨_, rfl, hx, ?_, rfl, rfl, hother, rfl, hmem⟩
  rw [hx, BitVec.and_assoc, BitVec.and_not_self]
  exact BitVec.and_zero

/-! ## Arithmetic with flags (R120 to R125) -/

theorem toNat_flagByte (c : Bool) : (flagByte c).toNat = if c = true then 1 else 0 := by
  cases c <;> rfl

theorem toNat_flagByte_decide (p : Prop) [Decidable p] : (flagByte (decide p)).toNat = if p then 1 else 0 := by
  rw [toNat_flagByte]
  simp only [decide_eq_true_iff]

theorem toNat_addRes (a b : Byte) : (addRes a b).toNat = (a.toNat + b.toNat) % 256 := BitVec.toNat_ofNat ..

theorem toNat_subRes (a b : Byte) : (subRes a b).toNat = (256 + a.toNat - b.toNat) % 256 := by
  have ha := a.isLt
  have hb := b.isLt
  rw [subRes, BitVec.toNat_ofInt]
  omega

theorem toNat_subnRes (a b : Byte) : (subnRes a b).toNat = (256 + b.toNat - a.toNat) % 256 := toNat_subRes b a

theorem toNat_shrRes (a b : Byte) : (shrRes a b).toNat = a.toNat / 2 := by
  rw [shrRes, BitVec.toNat_ushiftRight, Nat.shiftRight_one]

theorem toNat_shrFlag (a b : Byte) : (shrFlag a b).toNat = a.toNat % 2 := by
  rw [shrFlag, toNat_flagByte, BitVec.getLsbD, Nat.testBit_zero]
  simp only [decide_eq_true_iff]
  split <;> omega

theorem toNat_shlRes (a b : Byte) : (shlRes a b).toNat = a.toNat * 2 % 256 := by
  rw [shlRes, BitVec.toNat_shiftLeft, Nat.shiftLeft_eq]

theorem toNat_shlFlag (a b : Byte) : (shlFlag a b).toNat = a.toNat / 128 := by
  have ha := a.isLt
  rw [shlFlag, toNat_flagByte, BitVec.getLsbD, Nat.testBit_eq_decide_div_mod_eq]
  simp only [decide_eq_true_iff]
  split <;> omega

/-- With no operand in VF the ALU writer leaves the result in Vx and the flag in VF (R120 to R124). -/
theorem State.alu_spec_of_ne (s : State) (res flag : Byte → Byte → Byte) {x y : RegIx} (hx : x ≠ VF) (hy : y ≠ VF) :
    (s.alu Config.vfAlias res flag x y).reg x = res (s.reg x) (s.reg y) ∧
      (s.alu Config.vfAlias res flag x y).reg VF = flag (s.reg x) (s.reg y) ∧
      (∀ r, r ≠ x → r ≠ VF → (s.alu Config.vfAlias res flag x y).reg r = s.reg r) ∧
      s.alu Config.vfAlias res flag x y = { s with v := (s.alu Config.vfAlias res flag x y).v } ∧
      SameMemory s (s.alu Config.vfAlias res flag x y) := by
  rw [State.alu_of_ne hx hy, State.aluFlagLast]
  refine ⟨?result, State.reg_setReg_same .., fun r hrx hrf => ?other, rfl, fun _ => rfl⟩
  case result => rw [State.reg_setReg_ne _ hx, State.reg_setReg_same]
  case other => rw [State.reg_setReg_ne _ hrf, State.reg_setReg_ne _ hrx]

/-- With an operand in VF it leaves a free byte in Vx and, unless Vx is VF, the flag in VF (R125). -/
theorem State.alu_spec_of_vf (s : State) (res flag : Byte → Byte → Byte) {x y : RegIx} (h : x = VF ∨ y = VF) :
    (s.alu Config.vfAlias res flag x y).reg x = Config.freeByte s.draws ∧
      (x ≠ VF → (s.alu Config.vfAlias res flag x y).reg VF = flag (s.reg x) (s.reg y)) ∧
      (∀ r, r ≠ x → r ≠ VF → (s.alu Config.vfAlias res flag x y).reg r = s.reg r) ∧
      s.alu Config.vfAlias res flag x y =
        { s with v := (s.alu Config.vfAlias res flag x y).v, draws := s.draws + 1 } ∧
      SameMemory s (s.alu Config.vfAlias res flag x y) := by
  rw [State.alu_of_vf h, State.aluUnspecified]
  refine ⟨?free, fun hx => ?written, fun r hrx hrf => ?other, rfl, fun _ => rfl⟩
  case free => rw [State.reg_countDraw, State.reg_setReg_same]; rfl
  case written => rw [State.reg_countDraw, State.reg_setReg_ne _ hx.symm, State.reg_setReg_same]
  case other => rw [State.reg_countDraw, State.reg_setReg_ne _ hrx, State.reg_setReg_ne _ hrf]

/-- Settles O30: the ALU writer at ADD's result and flag. -/
theorem addWritesSumAndCarry : Obligations.AddWritesSumAndCarry := by
  intro x y s hx hy
  obtain ⟨hres, hflag, hframe⟩ := s.alu_spec_of_ne addRes addFlag hx hy
  exact ⟨_, rfl, by rw [hres, toNat_addRes], by rw [hflag, addFlag, toNat_flagByte_decide], hframe⟩

/-- Settles O31: the ALU writer at SUB's and at SUBN's result and flag. -/
theorem subtractionsWriteDifferenceAndNoBorrow : Obligations.SubtractionsWriteDifferenceAndNoBorrow := by
  intro x y s hx hy
  constructor
  · obtain ⟨hres, hflag, hframe⟩ := s.alu_spec_of_ne subRes subFlag hx hy
    exact ⟨_, rfl, by rw [hres, toNat_subRes], by rw [hflag, subFlag, toNat_flagByte_decide], hframe⟩
  · obtain ⟨hres, hflag, hframe⟩ := s.alu_spec_of_ne subnRes subnFlag hx hy
    exact ⟨_, rfl, by rw [hres, toNat_subnRes], by rw [hflag, subnFlag, toNat_flagByte_decide], hframe⟩

/-- Settles O32: the shifts are the ALU writer with Vx as both operands. -/
theorem shiftsWriteResultAndBitShiftedOut : Obligations.ShiftsWriteResultAndBitShiftedOut := by
  intro x y s hx
  constructor
  · obtain ⟨hres, hflag, hframe⟩ := s.alu_spec_of_ne shrRes shrFlag hx hx
    exact ⟨_, rfl, by rw [hres, toNat_shrRes], by rw [hflag, toNat_shrFlag], hframe⟩
  · obtain ⟨hres, hflag, hframe⟩ := s.alu_spec_of_ne shlRes shlFlag hx hx
    exact ⟨_, rfl, by rw [hres, toNat_shlRes], by rw [hflag, toNat_shlFlag], hframe⟩

/-- Settles O33: the ALU writer on VF, which never looks at the result. -/
theorem vfOperandLeavesAFreeValue : Obligations.VfOperandLeavesAFreeValue := by
  refine fun x y s => ⟨fun h => ⟨?add, ?sub, ?subn⟩, ?shr, ?shl⟩
  case add =>
    obtain ⟨hfree, hflag, hframe⟩ := s.alu_spec_of_vf addRes addFlag h
    exact ⟨_, rfl, hfree, fun hx => by rw [hflag hx, addFlag, toNat_flagByte_decide], hframe⟩
  case sub =>
    obtain ⟨hfree, hflag, hframe⟩ := s.alu_spec_of_vf subRes subFlag h
    exact ⟨_, rfl, hfree, fun hx => by rw [hflag hx, subFlag, toNat_flagByte_decide], hframe⟩
  case subn =>
    obtain ⟨hfree, hflag, hframe⟩ := s.alu_spec_of_vf subnRes subnFlag h
    exact ⟨_, rfl, hfree, fun hx => by rw [hflag hx, subnFlag, toNat_flagByte_decide], hframe⟩
  case shr =>
    obtain ⟨hfree, _, hother, hframe⟩ := s.alu_spec_of_vf shrRes shrFlag (x := VF) (y := VF) (.inl rfl)
    exact ⟨_, rfl, hfree, fun r hr => hother r hr hr, hframe⟩
  case shl =>
    obtain ⟨hfree, _, hother, hframe⟩ := s.alu_spec_of_vf shlRes shlFlag (x := VF) (y := VF) (.inl rfl)
    exact ⟨_, rfl, hfree, fun r hr => hother r hr hr, hframe⟩

/-! ## Input (R140 to R142) -/

theorem State.keyPressed_eq {s : State} {x : RegIx} {k : Fin 16} (hk : k.val = (s.reg x).toNat % 16) :
    s.keyPressed x = s.keys.get k := by
  have hindex : keyIndex (s.reg x) = k := Fin.ext hk.symm
  rw [State.keyPressed, hindex]

/-- Settles O38: two skips on the key of the low nibble. -/
theorem keySkipsTestTheLowNibblesKey : Obligations.KeySkipsTestTheLowNibblesKey := by
  intro x k s hk
  refine ⟨⟨_, rfl, ?_, rfl, fun _ => rfl⟩, ⟨_, rfl, ?_, rfl, fun _ => rfl⟩⟩
  · rw [State.skipIf_pc, State.keyPressed_eq hk]
  · rw [State.skipIf_pc, State.keyPressed_eq hk]
    cases s.keys.get k <;> rfl

/-- The lowest pressed key is the first one found. -/
theorem firstPressed_eq_some {ks : Keys} {k : Fin 16} (hk : ks.get k = true) (hlow : ∀ j, j < k → ks.get j = false) :
    firstPressed ks = some k := by
  rw [firstPressed, List.find?_eq_some_iff_getElem]
  refine ⟨hk, k.val, by simp, by simp, fun j hj => ?_⟩
  rw [hlow _ (by simpa [Fin.lt_def] using hj)]
  rfl

theorem firstPressed_eq_none {ks : Keys} (h : ∀ j, ks.get j = false) : firstPressed ks = none := by
  rw [firstPressed, List.find?_eq_none]
  exact fun j _ => by rw [h j]; decide

/-- Settles O39: the two answers of the search for a pressed key. -/
theorem waitForKeyTakesTheLowestOrRepeats : Obligations.WaitForKeyTakesTheLowestOrRepeats := by
  constructor
  · intro x k s hk hlow
    obtain ⟨hx, hframe⟩ := s.setReg_spec x (BitVec.ofNat 8 k.val)
    refine ⟨_, exec_ldVxK_of_some (firstPressed_eq_some hk hlow), ?_, hframe⟩
    rw [hx, BitVec.toNat_ofNat, Nat.mod_eq_of_lt (by omega)]
  · exact fun x s h => ⟨_, exec_ldVxK_of_none (firstPressed_eq_none h), rfl, rfl, fun _ => rfl⟩

/-! ## Timers and index (R150 to R154, R160) -/

/-- Settles O40: a register write and two timer writes. -/
theorem timerMovesCopyTheByte : Obligations.TimerMovesCopyTheByte := fun x s =>
  ⟨⟨_, rfl, s.setReg_spec x s.dt⟩, ⟨_, rfl, rfl, rfl, fun _ => rfl⟩, ⟨_, rfl, rfl, rfl, fun _ => rfl⟩⟩

/-- Settles O41: the sum wraps at 2^16; the other two values fit. -/
theorem indexWritersSetI : Obligations.IndexWritersSetI := by
  refine fun x nnn s => ⟨⟨_, rfl, ?sum, rfl, fun _ => rfl⟩, ⟨_, rfl, ?glyph, rfl, fun _ => rfl⟩,
    ⟨_, rfl, toNat_zext16 nnn, rfl, fun _ => rfl⟩⟩
  case sum => rw [State.setI_i, BitVec.toNat_ofNat]
  case glyph =>
    rw [State.setI_i, BitVec.toNat_ofNat, Config.fontBase, Config.glyphBytes, Nat.zero_add, Nat.mod_eq_of_lt (by omega)]

end Sys2Proof.Machine
end

section
namespace Sys2Proof.Machine

/-! ## Block transfers (R155 to R158, R173) -/

/-- The addresses of a block of `n` bytes from `I` on. -/
def State.block (s : State) (n : Nat) : List Nat := List.range' (s.indexAddr 0) n

theorem State.mem_block {s : State} {n a : Nat} : a ∈ s.block n ↔ ∃ k, k < n ∧ a = s.indexAddr k := by
  rw [State.block, List.mem_range'_1]
  constructor
  · exact fun ⟨hlow, hhigh⟩ => ⟨a - s.indexAddr 0, by omega, by rw [State.indexAddr_eq s (a - _)]; omega⟩
  · rintro ⟨k, hk, rfl⟩
    rw [State.indexAddr_eq s k]
    omega

/-- Of a block's addresses the first one outside memory is 4096, or the first of all. -/
theorem first_out_of_bounds {s : State} {n a : Nat} {l₁ l₂ : List Nat} (h : s.block n = l₁ ++ a :: l₂)
    (hin : ∀ q ∈ l₁, q < 4096) (ha : 4096 ≤ a) : a = max 4096 (s.indexAddr 0) := by
  obtain ⟨k, hk, rfl, hrest⟩ := List.range'_eq_append_iff.mp h
  obtain ⟨haddr, _⟩ := List.range'_eq_cons_iff.mp hrest.symm
  cases k with
  | zero => omega
  | succ k =>
    have hlast : s.indexAddr 0 + k < 4096 := hin _ (by simp)
    omega

section
variable {s : State} {l : List (Nat × Byte)} {n : Nat} (hl : l.map Prod.fst = s.block n)
include hl

theorem store_address {p : Nat × Byte} (hp : p ∈ l) : ∃ k, k < n ∧ p.1 = s.indexAddr k :=
  State.mem_block.mp (hl ▸ List.mem_map_of_mem hp)

/-- A block of stores that ends inside memory: each byte at its address, every other byte and field as before. -/
theorem storeState_block (hm : s.mem.wf) (hn : s.indexAddr 0 + n ≤ 4096) :
    ∃ t, finish s (storeState l s) = .next t ∧ (∀ a b, (a, b) ∈ l → t.mem.peek a = b) ∧
      (∀ a, (∀ k, k < n → a ≠ s.indexAddr k) → t.mem.peek a = s.mem.peek a) ∧
      t = { s with mem := t.mem } ∧ t.mem.wf := by
  have hin : ∀ p ∈ l, p.1 < Config.memSize := fun p hp => by
    obtain ⟨k, hk, heq⟩ := store_address hl hp
    rw [heq, State.indexAddr_eq]
    exact Nat.lt_of_lt_of_le (Nat.add_lt_add_left hk _) hn
  have hnodup : (l.map Prod.fst).Nodup := hl ▸ List.nodup_range'
  refine ⟨s.setMem (s.mem.pokes l), ?runs, fun a b hp => ?stored, fun a ha => ?other, rfl, Memory.wf_pokes hm hin⟩
  case runs => rw [storeState_of_lt hin]; rfl
  case stored => exact Memory.peek_pokes_of_mem hm.1 (List.pairwise_map.mp hnodup) hp
  case other =>
    refine Memory.peek_pokes_of_not_mem hm.1 fun p hp heq => ?_
    obtain ⟨k, hk, haddr⟩ := store_address hl hp
    exact ha k hk (heq.symm.trans haddr)

/-- A block of stores that raises nothing ended inside memory. -/
theorem block_lt_of_storeState {t : State} (h : storeState l s = .ok t) {k : Nat} (hk : k < n) : s.indexAddr k < 4096 := by
  obtain ⟨m, hw, _⟩ := storeState_ok h
  have hmem : s.indexAddr k ∈ l.map Prod.fst := hl ▸ State.mem_block.mpr ⟨k, hk, rfl⟩
  obtain ⟨p, hp, heq⟩ := List.mem_map.mp hmem
  exact heq ▸ (Memory.writeAll_ok hw).1 p hp

/-- A block of stores that ends outside memory faults at its first address there. -/
theorem storeState_block_fault {k : Nat} (hk : k < n) (hout : 4096 ≤ s.indexAddr k) :
    ∃ t, finish s (storeState l s) = .next t ∧ t.stoppedWith s 3 (max 4096 (s.indexAddr 0)) := by
  cases hst : storeState l s with
  | ok t => exact absurd (block_lt_of_storeState hl hst hk) (Nat.not_lt.mpr hout)
  | error e =>
    obtain ⟨l₁, p, l₂, rfl, hin, hp, rfl⟩ := Memory.writeAll_error (storeState_error hst)
    rw [List.map_append, List.map_cons] at hl
    have haddr : p.1 = max 4096 (s.indexAddr 0) := first_out_of_bounds hl.symm (List.forall_mem_map.mpr hin) hp
    exact ⟨_, rfl, haddr ▸ State.raise_fault ..⟩

end

/-! ### LD B -/

theorem bcdStores_block (x : RegIx) (s : State) : (bcdStores x s).map Prod.fst = s.block 3 := rfl

/-- Settles O42: a block of three stores. -/
theorem bcdStoresTheDecimalDigits : Obligations.BcdStoresTheDecimalDigits := by
  refine fun x s hm => ⟨fun hin => ?stores, storeState_block_fault (bcdStores_block x s) (by decide : 2 < 3)⟩
  obtain ⟨t, hexec, hstored, hframe⟩ := storeState_block (bcdStores_block x s) hm hin
  refine ⟨t, hexec, ?hundreds, ?tens, ?units, hframe⟩
  case hundreds => rw [hstored _ _ (.head _), bcdHundreds_toNat]
  case tens => rw [hstored _ _ (.tail _ (.head _)), bcdTens_toNat]
  case units => rw [hstored _ _ (.tail _ (.tail _ (.head _))), bcdUnits_toNat]

/-! ### LD [I] -/

/-- The registers V0 to Vx stand at the addresses of a block of `x + 1` bytes. -/
theorem regsUpTo_block (x : RegIx) (s : State) : (regsUpTo x).map (fun k => s.indexAddr k.val) = s.block (x.val + 1) := by
  have haddr : (fun k : RegIx => s.indexAddr k.val) = (s.indexAddr 0 + ·) ∘ Fin.val := funext fun k => s.indexAddr_eq k.val
  rw [haddr, ← List.map_map, regsUpTo_vals, State.block, List.range'_eq_map_range]

theorem dumpStores_block (x : RegIx) (s : State) : (dumpStores x s).map Prod.fst = s.block (x.val + 1) := by
  rw [dumpStores, List.map_map]
  exact regsUpTo_block x s

theorem mem_dumpStores {x k : RegIx} (s : State) (hk : k ≤ x) : (s.indexAddr k.val, s.reg k) ∈ dumpStores x s :=
  List.mem_map.mpr ⟨k, mem_regsUpTo.mpr hk, rfl⟩

/-- A dump whose last address is in memory. -/
theorem exec_dump {x : RegIx} {s : State} (hm : s.mem.wf) (hin : s.indexAddr x.val < 4096) :
    ∃ t, exec (.ldMemVx x) s = .next t ∧
      (∀ k, k ≤ x → t.mem.peek (s.indexAddr k.val) = s.reg k) ∧
      (∀ a, (∀ k, k ≤ x → a ≠ s.indexAddr k.val) → t.mem.peek a = s.mem.peek a) ∧
      t = { s with mem := t.mem } ∧ t.mem.wf := by
  obtain ⟨t, hexec, hstored, hother, hframe⟩ := storeState_block (dumpStores_block x s) hm hin
  refine ⟨t, hexec, fun k hk => hstored _ _ (mem_dumpStores s hk), fun a ha => hother a fun k hk => ?_, hframe⟩
  exact ha ⟨k, by omega⟩ (Nat.le_of_lt_succ hk)

/-- Settles O43: a block of `x + 1` stores. -/
theorem dumpStoresTheRegisters : Obligations.DumpStoresTheRegisters := fun x s hm =>
  ⟨exec_dump hm, storeState_block_fault (dumpStores_block x s) (Nat.lt_succ_self x.val)⟩

/-- What a dump that did not fault left in memory, with its addresses in bounds. -/
theorem dump_of_running {x : RegIx} {s t : State} (hm : s.mem.wf) (h : exec (.ldMemVx x) s = .next t) (ht : t.running) :
    s.indexAddr x.val < 4096 ∧ t.i = s.i ∧ ∀ k, k ≤ x → t.mem.peek (s.indexAddr k.val) = s.reg k := by
  have hin : s.indexAddr x.val < 4096 :=
    block_lt_of_storeState (dumpStores_block x s) (exec_running h ht) (Nat.lt_succ_self x.val)
  obtain ⟨t', hexec, hstored, _, hframe, _⟩ := exec_dump hm hin
  obtain rfl : t' = t := Host.Outcome.next.inj (hexec.symm.trans h)
  exact ⟨hin, (congrArg State.i hframe :), hstored⟩

/-! ### LD Vx, [I] -/

/-- A load whose last address is in memory. -/
theorem exec_load {x : RegIx} {s : State} (hin : s.indexAddr x.val < 4096) :
    ∃ t, exec (.ldVxMem x) s = .next t ∧ (∀ k, k ≤ x → t.reg k = s.mem.peek (s.indexAddr k.val)) ∧
      (∀ r, x < r → t.reg r = s.reg r) ∧ t = { s with v := t.v } ∧ SameMemory s t := by
  have hall : ∀ k ∈ regsUpTo x, s.indexAddr k.val < Config.memSize := fun k hk =>
    Nat.lt_of_le_of_lt (Nat.add_le_add_left (mem_regsUpTo.mp hk) _) hin
  obtain ⟨t, hload⟩ := loadState_of_lt hall
  obtain ⟨_, hframe, hregs⟩ := loadState_ok hload
  refine ⟨t, ?runs, fun k hk => ?loaded, fun r hr => ?kept, hframe, fun a => ?memory⟩
  case runs => exact congrArg (finish s) hload
  case loaded => rw [hregs k, if_pos (mem_regsUpTo.mpr hk)]
  case kept => rw [hregs r, if_neg fun hmem => Nat.not_lt.mpr (mem_regsUpTo.mp hmem) hr]
  case memory => rw [hframe]

/-- A load whose last address is outside memory faults at its first address there. -/
theorem exec_load_fault {x : RegIx} {s : State} (hout : 4096 ≤ s.indexAddr x.val) :
    ∃ t, exec (.ldVxMem x) s = .next t ∧ t.stoppedWith s 3 (max 4096 (s.indexAddr 0)) := by
  cases hload : loadState (regsUpTo x) s with
  | ok t =>
    obtain ⟨hall, _, _⟩ := loadState_ok hload
    exact absurd (hall x (mem_regsUpTo.mpr (Nat.le_refl _))) (Nat.not_lt.mpr hout)
  | error e =>
    obtain ⟨l₁, k, l₂, hsplit, hin, hk, rfl⟩ := loadState_error hload
    have hblock := regsUpTo_block x s
    rw [hsplit, List.map_append, List.map_cons] at hblock
    have haddr := first_out_of_bounds hblock.symm (List.forall_mem_map.mpr hin) hk
    exact ⟨_, congrArg (finish s) hload, haddr ▸ State.raise_fault ..⟩

/-- Settles O44. -/
theorem loadReadsTheRegisters : Obligations.LoadReadsTheRegisters := fun _ _ => ⟨exec_load, exec_load_fault⟩

/-! ### Dump, then read -/

/-- Settles O45: the load reads, at the same addresses, the bytes the dump stored. -/
theorem dumpThenLoadRestoresTheRegisters : Obligations.DumpThenLoadRestoresTheRegisters := by
  intro x s t u hm h ht hmem hi
  obtain ⟨hin, hti, hstored⟩ := dump_of_running hm h ht
  have haddr (k : Nat) : u.indexAddr k = s.indexAddr k := by rw [State.indexAddr, hi, hti, State.indexAddr]
  obtain ⟨r, hexec, hloaded, _⟩ := exec_load (s := u) (x := x) (by rw [haddr]; exact hin)
  exact ⟨r, hexec, fun k hk => by rw [hloaded k hk, hmem, haddr, hstored k hk]⟩

/-- Settles O46: a fetch joins the two bytes the dump stored at its addresses. -/
theorem storedBytesAreFetched : Obligations.StoredBytesAreFetched := by
  intro x j k s t hm h ht hjk hkx
  obtain ⟨hin, _, hstored⟩ := dump_of_running hm h ht
  have hjx : j ≤ x := Fin.le_def.mpr (by rw [Fin.le_def] at hkx; omega)
  have haddr : s.indexAddr j.val + 1 = s.indexAddr k.val := by rw [hjk]; rfl
  have hlt : s.indexAddr j.val + 1 < Config.memSize := by
    rw [haddr]
    exact Nat.lt_of_le_of_lt (Nat.add_le_add_left hkx _) hin
  rw [Memory.fetchWord_of_lt hlt, wordAt, haddr, hstored j hjx, hstored k hkx]

end Sys2Proof.Machine
end

section
namespace Sys2Proof.Machine

/-! ## One pixel and one row of a sprite (R133 to R135) -/

section
variable (x0 : Nat) (y : Fin Config.height) (row : Byte)

/-- A pixel flips the one cell it lands on when its bit is set; beyond the right edge it lands on none. -/
theorem cell_drawPixel (p : Canvas) (c : Nat) (yy : Fin Config.height) (xx : Fin Config.width) :
    cell (drawPixel x0 y row p c).display yy xx =
      (cell p.display yy xx ^^ decide (yy = y ∧ xx.val = x0 + c ∧ spriteBit row c = true)) := by
  unfold drawPixel
  split
  · rename_i hx
    rw [cell_setCell]
    by_cases hcell : yy = y ∧ xx = ⟨x0 + c, hx⟩
    · obtain ⟨rfl, rfl⟩ := hcell
      simp
    · rw [if_neg hcell, decide_eq_false, Bool.xor_false]
      exact fun ⟨hy, hxx, _⟩ => hcell ⟨hy, Fin.ext hxx⟩
  · rename_i hx
    rw [decide_eq_false, Bool.xor_false]
    exact fun ⟨_, hxx, _⟩ => hx (hxx ▸ xx.isLt)

/-- Columns 0 to `n - 1` of a sprite row. -/
def drawColumns (n : Nat) (p : Canvas) : Canvas := (List.range n).foldl (drawPixel x0 y row) p

theorem drawRow_eq_drawColumns (p : Canvas) : drawRow x0 y row p = drawColumns x0 y row 8 p := rfl

theorem drawColumns_succ (n : Nat) (p : Canvas) :
    drawColumns x0 y row (n + 1) p = drawPixel x0 y row (drawColumns x0 y row n p) n := by
  rw [drawColumns, List.range_succ, List.foldl_append]
  rfl

/-- Columns 0 to `n - 1` flip the cells under their set bits, each at most once. -/
theorem cell_drawColumns (n : Nat) (p : Canvas) (yy : Fin Config.height) (xx : Fin Config.width) :
    cell (drawColumns x0 y row n p).display yy xx =
      (cell p.display yy xx ^^ decide (yy = y ∧ x0 ≤ xx.val ∧ xx.val < x0 + n ∧ spriteBit row (xx.val - x0) = true)) := by
  induction n with
  | zero =>
    rw [decide_eq_false fun ⟨_, hlow, hhigh, _⟩ => Nat.not_lt.mpr hlow hhigh, Bool.xor_false]
    rfl
  | succ n ih =>
    rw [drawColumns_succ, cell_drawPixel, ih, Bool.xor_assoc]
    congr 1
    by_cases hn : xx.val = x0 + n
    · simp [hn]
    · have hlt : xx.val < x0 + (n + 1) ↔ xx.val < x0 + n := by omega
      simp [hn, hlt]

/-- VF after some columns: the collision of the last of them that lies inside the display, or what it was. -/
theorem vf_drawColumns_of_lt {n : Nat} (p : Canvas) (hx : x0 + n < Config.width) :
    (drawColumns x0 y row (n + 1) p).vf =
      if (cell p.display y ⟨x0 + n, hx⟩ && spriteBit row n) = true then 1 else 0 := by
  have hcell : cell (drawColumns x0 y row n p).display y ⟨x0 + n, hx⟩ = cell p.display y ⟨x0 + n, hx⟩ := by
    rw [cell_drawColumns, decide_eq_false, Bool.xor_false]
    exact fun ⟨_, _, hlt, _⟩ => Nat.lt_irrefl _ hlt
  rw [drawColumns_succ, drawPixel, dif_pos hx, hcell]

theorem drawColumns_of_ge {n : Nat} (p : Canvas) (hx : Config.width ≤ x0 + n) (k : Nat) :
    drawColumns x0 y row (n + k) p = drawColumns x0 y row n p := by
  induction k with
  | zero => rfl
  | succ k ih =>
    rw [← Nat.add_assoc, drawColumns_succ, ih, drawPixel, dif_neg]
    exact Nat.not_lt.mpr (Nat.le_trans hx (by omega))

/-- A row that starts at or beyond the right edge draws nothing. -/
theorem drawRow_of_ge (p : Canvas) (hx : Config.width ≤ x0) : drawRow x0 y row p = p :=
  drawColumns_of_ge x0 y row (n := 0) p hx 8

/-- The last column of a row inside the display. -/
def lastColumn : Nat := min 7 (63 - x0)

/-- After a row that starts inside the display VF is the collision of its last column there (R137). -/
theorem vf_drawRow (p : Canvas) (xx : Fin Config.width) (hxx : xx.val = x0 + lastColumn x0) :
    (drawRow x0 y row p).vf = if (cell p.display y xx && spriteBit row (lastColumn x0)) = true then 1 else 0 := by
  have hlt : x0 + lastColumn x0 < Config.width := hxx ▸ xx.isLt
  obtain rfl : xx = ⟨x0 + lastColumn x0, hlt⟩ := Fin.ext hxx
  have hrow : drawRow x0 y row p = drawColumns x0 y row (lastColumn x0 + 1) p := by
    rw [drawRow_eq_drawColumns]
    by_cases hclip : x0 ≤ 56
    · rw [show lastColumn x0 = 7 by unfold lastColumn; omega]
    · rw [← drawColumns_of_ge x0 y row p (n := lastColumn x0 + 1) (k := 7 - lastColumn x0)]
      · congr 1
        unfold lastColumn; omega
      · simp only [lastColumn, Config.width] at hlt ⊢
        omega
  rw [hrow, vf_drawColumns_of_lt]

end

/-! ## The rows of a sprite (R131, R132) -/

section
variable (m : Memory) (base x0 y0 : Nat)

/-- The display row a sprite row lands on when it is below `2H`: wrapped once (R132). -/
def landingRow (r : Nat) : Fin Config.height := ⟨(y0 + r) % 32, Nat.mod_lt _ (by decide)⟩

/-- Sprite row `r` drawn, its bounds not checked. -/
def paintRow (p : Canvas) (r : Nat) : Canvas := drawRow x0 (landingRow y0 r) (m.peek (base + r)) p

/-- Rows 0 to `n - 1` of a sprite drawn in order, their bounds not checked. -/
def paint (n : Nat) (p : Canvas) : Canvas := (List.range n).foldl (paintRow m base x0 y0) p

/-- Sprite row `r` can be drawn: its byte is in memory and its row below `2H`. -/
abbrev RowFits (r : Nat) : Prop := base + r < 4096 ∧ y0 + r < 64

theorem paint_succ (n : Nat) (p : Canvas) : paint m base x0 y0 (n + 1) p = paintRow m base x0 y0 (paint m base x0 y0 n p) n := by
  rw [paint, List.range_succ, List.foldl_append]
  rfl

/-- Rows that can be drawn are drawn, and the rest follows on what they leave. -/
theorem drawRows_append {l : List Nat} (h : ∀ r ∈ l, RowFits base y0 r) (l' : List Nat) (p : Canvas) :
    drawRows true m base x0 y0 (l ++ l') p = drawRows true m base x0 y0 l' (l.foldl (paintRow m base x0 y0) p) := by
  induction l generalizing p with
  | nil => rfl
  | cons r l ih =>
    obtain ⟨hr, hl⟩ := List.forall_mem_cons.mp h
    obtain ⟨haddr, hrow⟩ := hr
    rw [List.cons_append, drawRows, Memory.read_of_lt haddr, targetRow_of_lt hrow]
    exact ih hl _

/-- Rows that were drawn could be. -/
theorem rowFits_of_drawRows {rs : List Nat} {p q : Canvas} (h : drawRows true m base x0 y0 rs p = .ok q) :
    ∀ r ∈ rs, RowFits base y0 r := by
  induction rs generalizing p with
  | nil => exact fun r hr => (List.not_mem_nil hr).elim
  | cons r rs ih =>
    rw [drawRows] at h
    split at h
    · cases h
    · rename_i row hread
      split at h
      · cases h
      · rename_i y hrow
        have hlt : y0 + r < 64 := by
          by_contra hge
          rw [targetRow_of_ge (Nat.le_of_not_lt hge)] at hrow
          cases hrow
        exact List.forall_mem_cons.mpr ⟨⟨(Memory.read_ok.mp hread).1, hlt⟩, ih h⟩

/-- The rows of a sprite that can all be drawn are painted. -/
theorem drawRows_of_rowFits {n : Nat} (h : ∀ r, r < n → RowFits base y0 r) (p : Canvas) :
    drawRows true m base x0 y0 (List.range n) p = .ok (paint m base x0 y0 n p) := by
  have happ := drawRows_append m base x0 y0 (l := List.range n) (fun r hr => h r (List.mem_range.mp hr)) [] p
  rwa [List.append_nil] at happ

/-- A sprite that starts at or beyond the right edge draws nothing. -/
theorem paint_of_ge (hx : Config.width ≤ x0) (n : Nat) (p : Canvas) : paint m base x0 y0 n p = p := by
  induction n with
  | zero => rfl
  | succ n ih => rw [paint_succ, ih, paintRow, drawRow_of_ge x0 _ _ p hx]

/-- A row that cannot be drawn stops the sprite, its byte before its row. -/
theorem drawRows_first_fault {n r : Nat} (hr : r < n) (h : ∀ q, q < r → RowFits base y0 q) (p : Canvas) :
    (4096 ≤ base + r → drawRows true m base x0 y0 (List.range n) p = .error (.memBounds (base + r))) ∧
      (base + r < 4096 → 64 ≤ y0 + r →
        drawRows true m base x0 y0 (List.range n) p = .error (.drawBounds (y0 + r - 32))) := by
  obtain ⟨l, hsplit⟩ : ∃ l, List.range n = List.range r ++ r :: l := by
    obtain ⟨k, rfl⟩ := Nat.exists_eq_add_of_lt hr
    refine ⟨(List.range k).map (r + 1 + ·), ?_⟩
    rw [show r + k + 1 = (r + 1) + k by omega, List.range_add, List.range_succ, List.append_assoc, List.singleton_append]
  rw [hsplit, drawRows_append m base x0 y0 (fun q hq => h q (List.mem_range.mp hq)), drawRows]
  constructor
  · intro haddr
    rw [Memory.read_of_ge haddr]
  · intro haddr hrow
    rw [Memory.read_of_lt haddr, targetRow_of_ge hrow]

/-! ### What painting does to a cell -/

/-- Sprite row `r` flips the cell. -/
def flips (yy : Fin Config.height) (xx : Fin Config.width) (r : Nat) : Bool :=
  decide (yy = landingRow y0 r ∧ x0 ≤ xx.val ∧ xx.val < x0 + 8 ∧ spriteBit (m.peek (base + r)) (xx.val - x0) = true)

/-- A row flips a cell when one of its set bits lands on it. -/
theorem flips_iff {yy : Fin Config.height} {xx : Fin Config.width} {r : Nat} :
    flips m base x0 y0 yy xx r = true ↔
      ∃ c, c < 8 ∧ yy.val = (y0 + r) % 32 ∧ xx.val = x0 + c ∧ (m.peek (base + r)).getLsbD (7 - c) = true := by
  rw [flips, decide_eq_true_iff]
  constructor
  · rintro ⟨rfl, hlow, hhigh, hbit⟩
    exact ⟨xx.val - x0, by omega, rfl, by omega, hbit⟩
  · rintro ⟨c, hc, hyy, hxx, hbit⟩
    refine ⟨Fin.ext hyy, by omega, by omega, ?_⟩
    rw [hxx, Nat.add_sub_cancel_left]
    exact hbit

/-- The parity of the flips of rows 0 to `n - 1`. -/
def flipParity (yy : Fin Config.height) (xx : Fin Config.width) : Nat → Bool
  | 0 => false
  | n + 1 => flipParity yy xx n ^^ flips m base x0 y0 yy xx n

theorem cell_paintRow (p : Canvas) (r : Nat) (yy : Fin Config.height) (xx : Fin Config.width) :
    cell (paintRow m base x0 y0 p r).display yy xx = (cell p.display yy xx ^^ flips m base x0 y0 yy xx r) :=
  cell_drawColumns ..

theorem cell_paint (n : Nat) (p : Canvas) (yy : Fin Config.height) (xx : Fin Config.width) :
    cell (paint m base x0 y0 n p).display yy xx = (cell p.display yy xx ^^ flipParity m base x0 y0 yy xx n) := by
  induction n with
  | zero => exact (Bool.xor_false _).symm
  | succ n ih => rw [paint_succ, cell_paintRow, ih, Bool.xor_assoc, flipParity]

variable {m base x0 y0}

theorem landingRow_of_flips {yy : Fin Config.height} {xx : Fin Config.width} {r : Nat}
    (h : flips m base x0 y0 yy xx r = true) : yy = landingRow y0 r := (of_decide_eq_true h).1

/-- Fewer than `H` rows land on different display rows. -/
theorem landingRow_ne {q r : Nat} (hq : q < r) (hr : r < 32) : landingRow y0 q ≠ landingRow y0 r := by
  intro h
  have hval : (y0 + q) % 32 = (y0 + r) % 32 := congrArg Fin.val h
  omega

/-- Before the row that lands on it, a cell has been flipped by none. -/
theorem flipParity_of_landingRow {yy : Fin Config.height} {xx : Fin Config.width} {r : Nat} (hr : r < 32)
    (hyy : yy = landingRow y0 r) {n : Nat} (hn : n ≤ r) : flipParity m base x0 y0 yy xx n = false := by
  induction n with
  | zero => rfl
  | succ n ih =>
    have hflips : flips m base x0 y0 yy xx n = false := by
      by_contra htrue
      exact landingRow_ne hn hr ((landingRow_of_flips (Bool.eq_true_of_not_eq_false htrue)).symm.trans hyy)
    rw [flipParity, ih (Nat.le_of_succ_le hn), hflips]
    rfl

/-- With at most `H` rows a cell is flipped by one of them or by none. -/
theorem flipParity_iff {yy : Fin Config.height} {xx : Fin Config.width} {n : Nat} (hn : n ≤ 32) :
    flipParity m base x0 y0 yy xx n = true ↔ ∃ r, r < n ∧ flips m base x0 y0 yy xx r = true := by
  induction n with
  | zero => simp [flipParity]
  | succ n ih =>
    have ih := ih (Nat.le_of_succ_le hn)
    cases hlast : flips m base x0 y0 yy xx n with
    | false =>
      rw [flipParity, hlast, Bool.xor_false, ih, Nat.exists_lt_succ_right, hlast]
      simp
    | true =>
      have hbefore := flipParity_of_landingRow (m := m) (base := base) (x0 := x0) (xx := xx) hn (landingRow_of_flips hlast)
        (Nat.le_refl n)
      rw [flipParity, hbefore, hlast]
      simp only [Bool.false_xor, true_iff]
      exact ⟨n, Nat.lt_succ_self n, hlast⟩

end

/-! ## DRW -/

/-- DRW with every row drawable: the painted display, VF and the redraw mark. -/
theorem exec_drw_of_rowFits {x y : RegIx} {n : Nat} {s : State}
    (h : ∀ r, r < n → RowFits s.i.toNat (s.reg y).toNat r) :
    exec (.drw x y n) s =
      .next ((s.setReg VF (paint s.mem s.i.toNat (s.reg x).toNat (s.reg y).toNat n ⟨s.display, 0⟩).vf).draw
        (paint s.mem s.i.toNat (s.reg x).toNat (s.reg y).toNat n ⟨s.display, 0⟩).display) := by
  have hrows := drawRows_of_rowFits s.mem s.i.toNat (s.reg x).toNat (s.reg y).toNat h ⟨s.display, 0⟩
  rw [show exec (.drw x y n) s = finish s (drwState true x y n s) from rfl, drwState, hrows]
  rfl

/-- A DRW that did not fault could draw every row. -/
theorem rowFits_of_exec_drw {x y : RegIx} {n : Nat} {s t : State} (h : exec (.drw x y n) s = .next t) (ht : t.running) :
    ∀ r, r < n → RowFits s.i.toNat (s.reg y).toNat r := by
  obtain ⟨p, hrows, _⟩ := drwState_ok (exec_running h ht)
  exact fun r hr => rowFits_of_drawRows _ _ _ _ hrows r (List.mem_range.mpr hr)

/-- A DRW whose rows fault does. -/
theorem exec_drw_of_error {x y : RegIx} {n : Nat} {s : State} {e : Raise}
    (h : drawRows true s.mem s.i.toNat (s.reg x).toNat (s.reg y).toNat (List.range n) ⟨s.display, 0⟩ = .error e) :
    exec (.drw x y n) s = .next (s.raise e) := by
  rw [show exec (.drw x y n) s = finish s (drwState true x y n s) from rfl, drwState, h]
  rfl

/-- Settles O36: the rows before the first that cannot be drawn are drawn, then it raises. -/
theorem drwFaultsAtTheFirstRowOutOfBounds : Obligations.DrwFaultsAtTheFirstRowOutOfBounds := by
  intro x y n r s hr hbefore
  obtain ⟨hmem, hrow⟩ := drawRows_first_fault s.mem s.i.toNat (s.reg x).toNat (s.reg y).toNat hr hbefore ⟨s.display, 0⟩
  exact ⟨fun haddr => ⟨_, exec_drw_of_error (hmem haddr), State.raise_fault ..⟩,
    fun haddr hge => ⟨_, exec_drw_of_error (hrow haddr hge), State.raise_fault ..⟩⟩

/-- Settles O34: the cells that differ are those flipped, each by one row. -/
theorem drwTogglesTheCellsUnderTheSprite : Obligations.DrwTogglesTheCellsUnderTheSprite := by
  intro x y n s hn hfits
  refine ⟨_, exec_drw_of_rowFits hfits, rfl, fun yy xx => ?cells, fun r hr => ?registers, rfl, fun _ => rfl⟩
  case cells =>
    have hflipped (b c : Bool) : (b ^^ c) ≠ b ↔ c = true := by revert b c; decide
    rw [State.draw_display, cell_paint, hflipped, flipParity_iff (by omega)]
    simp only [flips_iff, ← exists_and_left]
    rfl
  case registers => rw [State.reg_draw, State.reg_setReg_ne _ hr]

/-- Settles O35: every row but the last leaves the last row's cells alone, and the last row's last column writes VF. -/
theorem drwFlagIsTheLastPixelsCollision : Obligations.DrwFlagIsTheLastPixelsCollision := by
  intro x y n s t hn h ht
  have hfits := rowFits_of_exec_drw h ht
  obtain rfl := Host.Outcome.next.inj ((exec_drw_of_rowFits hfits).symm.trans h)
  rw [State.reg_draw, State.reg_setReg_same]
  refine ⟨?nothing, fun hn0 hx yy xx hyy hxx => ?last⟩
  case nothing =>
    rintro (rfl | hx)
    · rfl
    · rw [paint_of_ge _ _ _ _ hx]
  case last =>
    obtain ⟨k, rfl⟩ : ∃ k, n = k + 1 := ⟨n - 1, by omega⟩
    have hland : yy = landingRow (s.reg y).toNat k := Fin.ext hyy
    rw [paint_succ, paintRow, vf_drawRow _ _ _ _ xx hxx, ← hland, cell_paint,
      flipParity_of_landingRow (by omega) hland (Nat.le_refl k), Bool.xor_false]
    simp only [Bool.and_eq_true, and_comm]
    rfl

/-- Settles O37: the second drawing flips the same cells. -/
theorem drawingTwiceRestoresTheDisplay : Obligations.DrawingTwiceRestoresTheDisplay := by
  intro x y n s t hx hy h ht
  have hfits := rowFits_of_exec_drw h ht
  obtain ⟨hi, hmem, hrx, hry, hdisplay⟩ : t.i = s.i ∧ t.mem = s.mem ∧ t.reg x = s.reg x ∧ t.reg y = s.reg y ∧
      t.display = (paint s.mem s.i.toNat (s.reg x).toNat (s.reg y).toNat n ⟨s.display, 0⟩).display := by
    obtain rfl := Host.Outcome.next.inj ((exec_drw_of_rowFits hfits).symm.trans h)
    exact ⟨rfl, rfl, by rw [State.reg_draw, State.reg_setReg_ne _ hx],
      by rw [State.reg_draw, State.reg_setReg_ne _ hy], rfl⟩
  refine ⟨_, exec_drw_of_rowFits (by rw [hi, hry]; exact hfits), ht, display_ext fun yy xx => ?_⟩
  rw [State.draw_display, cell_paint, hdisplay, cell_paint, hi, hmem, hrx, hry, Bool.xor_assoc, Bool.xor_self,
    Bool.xor_false]

end Sys2Proof.Machine
end
